-- ==== Sys2Proof/Word.lean ====
section
/-! DEFINITION. The bit-vector types the spec's ports and registers have (30_encoding.md R52, 10_state.md R22). -/

namespace Sys2Proof

/-- A register, an effective address, a command word or a 32-bit port. -/
abbrev Word := BitVec 32

/-- The 64-bit port a physical address comes in on (30_encoding.md R52). -/
abbrev PhysAddr := BitVec 64

/-- One byte of the serialisation of 20_memory.md R41. -/
abbrev Byte := BitVec 8

end Sys2Proof
end

