-- ==== Sys2Proof/Syntax.lean ====
section
/-! DEFINITION. The commands of the opcode map (30_encoding.md R53), and the raw form in which a host presents one. -/

namespace Sys2Proof

/-- The thirteen 32-bit operand ports of PTEENC, in layout order (41_pte_codec.md R115). -/
structure PtePorts where
  v : Word
  vsid : Word
  h : Word
  api : Word
  rpn : Word
  xpn : Word
  r : Word
  c : Word
  w : Word
  i : Word
  m : Word
  g : Word
  pp : Word
deriving DecidableEq, Repr

/-- One constructor per row of spec/opcode_table.json, its arguments the row's IDX (where it is used) and operand ports, each
at the width 30_encoding.md R53 gives it. The types admit no operand outside its port's width (30_encoding.md R52, D6). -/
inductive Instr where
  | vsid (ctx : Word) (seg : BitVec 4)
  | vsidea (ctx ea : Word)
  | pteenc (ports : PtePorts)
  | ptedec (w0 w1 : Word)
  | ppchk (pp : BitVec 2) (key : BitVec 1)
  | batsize (base top : PhysAddr)
  | batfree
  | batpenc (pa : PhysAddr)
  | batpdec (bits : Word)
  | batuenc (ea code : Word) (vs vp : BitVec 1)
  | batlenc (pa : PhysAddr) (wimg pp : Word)
  | batwr (idx : BitVec 4) (upper lower : Word)
  | batrd (idx : BitVec 4)
  | srinst (seed : Word)
  | srsync
  | srwr (idx : BitVec 4) (value : Word)
  | srrd (idx : BitVec 4)
  | uenter
deriving DecidableEq, Repr

/-- What a host presents: a 32-bit command word and the values on the operand ports (30_encoding.md R50).
A port carries a natural (R52); the list gives them in the order of the row of R53 (log 9). -/
structure Command where
  word : Word
  ports : List Nat
deriving DecidableEq, Repr

end Sys2Proof
end

