-- ==== Sys2Proof/WellFormed.lean ====
section
/-! DEFINITION. Which raw commands spell a command: the opcode table as match, mask and port widths (30_encoding.md R53, R54
and spec/opcode_table.json), and the checks that a raw command fits its row. Written apart from the decoder, which follows the
step list of R54; that the two agree is an obligation. -/

namespace Sys2Proof

/-- One row of the opcode table: mnemonic, match, mask, and the operand ports with their widths, in the table's order. -/
structure Row where
  mnemonic : String
  pattern : Word
  mask : Word
  ports : List (String × Nat)
deriving DecidableEq, Repr

/-- The rows that do not use IDX have an all-ones mask (30_encoding.md R54). -/
def rowPlain (mnemonic : String) (pattern : Word) (ports : List (String × Nat)) : Row :=
  ⟨mnemonic, pattern, 0xFFFFFFFF, ports⟩

/-- The rows that use IDX leave its four bits out of the mask (30_encoding.md R54). -/
def rowIdx (mnemonic : String) (pattern : Word) (ports : List (String × Nat)) : Row :=
  ⟨mnemonic, pattern, 0xFFFFFFF0, ports⟩

/-- The rows of the VSID mapper and of the PTE codec. -/
def rowsVsidPte : List Row :=
  [rowPlain "VSID" 0x01000000 [("ctx", 32), ("seg", 4)],
   rowPlain "VSIDEA" 0x02000000 [("ctx", 32), ("ea", 32)],
   rowPlain "PTEENC" 0x10000000
     [("v", 32), ("vsid", 32), ("h", 32), ("api", 32), ("rpn", 32), ("xpn", 32), ("r", 32), ("c", 32), ("w", 32),
      ("i", 32), ("m", 32), ("g", 32), ("pp", 32)],
   rowPlain "PTEDEC" 0x11000000 [("w0", 32), ("w1", 32)],
   rowPlain "PPCHK" 0x12000000 [("pp", 2), ("key", 1)]]

/-- The rows of the BAT allocator. -/
def rowsBat : List Row :=
  [rowPlain "BATSIZE" 0x20000000 [("base", 64), ("top", 64)],
   rowPlain "BATFREE" 0x21000000 [],
   rowPlain "BATPENC" 0x22000000 [("pa", 64)],
   rowPlain "BATPDEC" 0x23000000 [("bits", 32)],
   rowPlain "BATUENC" 0x24000000 [("ea", 32), ("code", 32), ("vs", 1), ("vp", 1)],
   rowPlain "BATLENC" 0x25000000 [("pa", 64), ("wimg", 32), ("pp", 32)],
   rowIdx "BATWR" 0x28000000 [("upper", 32), ("lower", 32)],
   rowIdx "BATRD" 0x29000000 []]

/-- The rows of the segment register installer. -/
def rowsSegment : List Row :=
  [rowPlain "SRINST" 0x30000000 [("seed", 32)],
   rowPlain "SRSYNC" 0x31000000 [],
   rowIdx "SRWR" 0x32000000 [("value", 32)],
   rowIdx "SRRD" 0x33000000 [],
   rowPlain "UENTER" 0x34000000 []]

/-- The 18 rows of spec/opcode_table.json, in its order. -/
def opcodeTable : List Row := rowsVsidPte ++ rowsBat ++ rowsSegment

/-- A word selects a row when it agrees with the row's match under the row's mask (30_encoding.md R54). -/
def Row.selects (row : Row) (word : Word) : Bool := word &&& row.mask == row.pattern

/-- The row a word selects, if any; no two rows match one word (30_encoding.md R54). -/
def rowOf (word : Word) : Option Row := opcodeTable.find? (·.selects word)

/-- First check: the word is a row's (30_encoding.md R54, R55). -/
def Command.wordOk (c : Command) : Bool := (rowOf c.word).isSome

/-- Second check: as many port values as the row has ports (30_encoding.md R52). -/
def Command.arityOk (c : Command) : Bool :=
  match rowOf c.word with
  | none => false
  | some row => c.ports.length == row.ports.length

/-- Third check: every port value is below 2^N for its port's width N (30_encoding.md R52). -/
def Command.rangeOk (c : Command) : Bool :=
  match rowOf c.word with
  | none => false
  | some row => (row.ports.zip c.ports).all fun pv => pv.2 < 2 ^ pv.1.2

/-- A raw command that spells a command of the block. -/
def Command.WellFormed (c : Command) : Bool := c.wordOk && c.arityOk && c.rangeOk

end Sys2Proof
end

