-- ==== Sys2Proof/Decode.lean ====
section
/-! DEFINITION. The decoder of command words and ports (30_encoding.md R50 to R55), and after it the encoder (R57). -/

namespace Sys2Proof

/-- Why a raw command spells no command. The first three are the steps of 30_encoding.md R54 and are the block's status
ILLEGAL_CMD; the last two are the refusal at the boundary of R52, which the block never sees. -/
inductive DecodeError where
  /-- R54 step 1: OPC is not in the opcode map. -/
  | reservedOpcode
  /-- R54 step 2: RSV, bits 23:4, is not 0. -/
  | reservedBits
  /-- R54 step 3: the opcode does not use IDX and IDX is not 0. -/
  | unusedIndex
  /-- R52: not as many port values as the opcode has ports. -/
  | portCount
  /-- R52: the value on this port (numbered from 0 in the order of R53) is outside the port's width. -/
  | portRange (port : Nat)
deriving DecidableEq, Repr

/-- OPC, bits 31:24 of a command word (30_encoding.md R50). -/
def wordOpc (word : Word) : BitVec 8 := word.extractLsb' 24 8

/-- RSV, bits 23:4 of a command word (30_encoding.md R50). -/
def wordRsv (word : Word) : BitVec 20 := word.extractLsb' 4 20

/-- IDX, bits 3:0 of a command word, read as an unsigned 4-bit number (30_encoding.md R51). -/
def wordIdx (word : Word) : BitVec 4 := word.extractLsb' 0 4

/-- What the opcode map says of one opcode: whether it uses IDX, its port widths in order, and the command that an IDX and
fitting port values make. -/
structure Shape where
  usesIdx : Bool
  widths : List Nat
  build : BitVec 4 → List Nat → Instr

/-- The value on port number `k`, at the port's width. -/
def portValue {w : Nat} (ports : List Nat) (k : Nat) : BitVec w := BitVec.ofNat w (ports.getD k 0)

/-- The thirteen ports of PTEENC in the order of 30_encoding.md R53. -/
def ptePortsOf (ps : List Nat) : PtePorts where
  v := portValue ps 0
  vsid := portValue ps 1
  h := portValue ps 2
  api := portValue ps 3
  rpn := portValue ps 4
  xpn := portValue ps 5
  r := portValue ps 6
  c := portValue ps 7
  w := portValue ps 8
  i := portValue ps 9
  m := portValue ps 10
  g := portValue ps 11
  pp := portValue ps 12

/-- The opcode map (30_encoding.md R53); every opcode not listed is reserved. -/
def opcodeShape (opc : BitVec 8) : Option Shape :=
  match opc.toNat with
  | 0x01 => some ⟨false, [32, 4], fun _ ps => .vsid (portValue ps 0) (portValue ps 1)⟩
  | 0x02 => some ⟨false, [32, 32], fun _ ps => .vsidea (portValue ps 0) (portValue ps 1)⟩
  | 0x10 => some ⟨false, List.replicate 13 32, fun _ ps => .pteenc (ptePortsOf ps)⟩
  | 0x11 => some ⟨false, [32, 32], fun _ ps => .ptedec (portValue ps 0) (portValue ps 1)⟩
  | 0x12 => some ⟨false, [2, 1], fun _ ps => .ppchk (portValue ps 0) (portValue ps 1)⟩
  | 0x20 => some ⟨false, [64, 64], fun _ ps => .batsize (portValue ps 0) (portValue ps 1)⟩
  | 0x21 => some ⟨false, [], fun _ _ => .batfree⟩
  | 0x22 => some ⟨false, [64], fun _ ps => .batpenc (portValue ps 0)⟩
  | 0x23 => some ⟨false, [32], fun _ ps => .batpdec (portValue ps 0)⟩
  | 0x24 => some ⟨false, [32, 32, 1, 1],
      fun _ ps => .batuenc (portValue ps 0) (portValue ps 1) (portValue ps 2) (portValue ps 3)⟩
  | 0x25 => some ⟨false, [64, 32, 32], fun _ ps => .batlenc (portValue ps 0) (portValue ps 1) (portValue ps 2)⟩
  | 0x28 => some ⟨true, [32, 32], fun idx ps => .batwr idx (portValue ps 0) (portValue ps 1)⟩
  | 0x29 => some ⟨true, [], fun idx _ => .batrd idx⟩
  | 0x30 => some ⟨false, [32], fun _ ps => .srinst (portValue ps 0)⟩
  | 0x31 => some ⟨false, [], fun _ _ => .srsync⟩
  | 0x32 => some ⟨true, [32], fun idx ps => .srwr idx (portValue ps 0)⟩
  | 0x33 => some ⟨true, [], fun idx _ => .srrd idx⟩
  | 0x34 => some ⟨false, [], fun _ _ => .uenter⟩
  | _ => none

/-- The steps of 30_encoding.md R54 on the command word; the first that applies decides. -/
def decodeWord (word : Word) : Except DecodeError Shape :=
  match opcodeShape (wordOpc word) with
  | none => .error .reservedOpcode
  | some shape =>
    if wordRsv word ≠ 0 then .error .reservedBits
    else if shape.usesIdx = false ∧ wordIdx word ≠ 0 then .error .unusedIndex
    else .ok shape

/-- The lowest-numbered port, counted from `k`, whose value is outside its width (30_encoding.md R52). -/
def firstMisfit (k : Nat) : List Nat → List Nat → Option Nat
  | w :: ws, v :: vs => if v < 2 ^ w then firstMisfit (k + 1) ws vs else some k
  | _, _ => none

/-- The decoder: total on any command word and any port values (30_encoding.md R52, R54). -/
def decode (c : Command) : Except DecodeError Instr :=
  match decodeWord c.word with
  | .error e => .error e
  | .ok shape =>
    if c.ports.length ≠ shape.widths.length then .error .portCount
    else
      match firstMisfit 0 shape.widths c.ports with
      | some k => .error (.portRange k)
      | none => .ok (shape.build (wordIdx c.word) c.ports)

/-- The raw command of `word` with 0 on every port its opcode has. -/
def commandOfWord (word : Word) : Command :=
  ⟨word, match opcodeShape (wordOpc word) with
    | some shape => shape.widths.map fun _ => 0
    | none => []⟩

/-- The command whose word has the bits `w`, every port 0: the block's operands come in on ports and no word of the table holds
them (30_encoding.md R50). A number of more than 32 bits, or of more than `nbits`, is no command word (log 11). -/
def decodeTableWord (nbits w : Nat) : Option Instr :=
  if w < 2 ^ 32 ∧ w < 2 ^ nbits then
    match decode (commandOfWord (BitVec.ofNat 32 w)) with
    | .ok i => some i
    | .error _ => none
  else none

/-! The encoder. -/

/-- `(OPC << 24) | IDX` (30_encoding.md R57). -/
def commandWord (opc : BitVec 8) (idx : BitVec 4) : Word := opc.setWidth 32 <<< 24 ||| idx.setWidth 32

/-- The port values of PTEENC in the order of 30_encoding.md R53. -/
def PtePorts.values (p : PtePorts) : List Nat :=
  [p.v.toNat, p.vsid.toNat, p.h.toNat, p.api.toNat, p.rpn.toNat, p.xpn.toNat, p.r.toNat, p.c.toNat, p.w.toNat,
   p.i.toNat, p.m.toNat, p.g.toNat, p.pp.toNat]

/-- The opcode of a command (30_encoding.md R53). -/
def opcodeOf : Instr → BitVec 8
  | .vsid _ _ => 0x01
  | .vsidea _ _ => 0x02
  | .pteenc _ => 0x10
  | .ptedec _ _ => 0x11
  | .ppchk _ _ => 0x12
  | .batsize _ _ => 0x20
  | .batfree => 0x21
  | .batpenc _ => 0x22
  | .batpdec _ => 0x23
  | .batuenc _ _ _ _ => 0x24
  | .batlenc _ _ _ => 0x25
  | .batwr _ _ _ => 0x28
  | .batrd _ => 0x29
  | .srinst _ => 0x30
  | .srsync => 0x31
  | .srwr _ _ => 0x32
  | .srrd _ => 0x33
  | .uenter => 0x34

/-- The IDX field of a command: 0 where the opcode does not use it (30_encoding.md R50). -/
def indexOf : Instr → BitVec 4
  | .batwr idx _ _ => idx
  | .batrd idx => idx
  | .srwr idx _ => idx
  | .srrd idx => idx
  | .vsid _ _ | .vsidea _ _ | .pteenc _ | .ptedec _ _ | .ppchk _ _ | .batsize _ _ | .batfree | .batpenc _
  | .batpdec _ | .batuenc _ _ _ _ | .batlenc _ _ _ | .srinst _ | .srsync | .uenter => 0

/-- The values a command puts on its ports, in the order of 30_encoding.md R53. -/
def portsOf : Instr → List Nat
  | .vsid ctx seg => [ctx.toNat, seg.toNat]
  | .vsidea ctx ea => [ctx.toNat, ea.toNat]
  | .pteenc ports => ports.values
  | .ptedec w0 w1 => [w0.toNat, w1.toNat]
  | .ppchk pp key => [pp.toNat, key.toNat]
  | .batsize base top => [base.toNat, top.toNat]
  | .batfree => []
  | .batpenc pa => [pa.toNat]
  | .batpdec bits => [bits.toNat]
  | .batuenc ea code vs vp => [ea.toNat, code.toNat, vs.toNat, vp.toNat]
  | .batlenc pa wimg pp => [pa.toNat, wimg.toNat, pp.toNat]
  | .batwr _ upper lower => [upper.toNat, lower.toNat]
  | .batrd _ => []
  | .srinst seed => [seed.toNat]
  | .srsync => []
  | .srwr _ value => [value.toNat]
  | .srrd _ => []
  | .uenter => []

/-- The raw command that spells an instruction (30_encoding.md R57). -/
def encode (i : Instr) : Command := ⟨commandWord (opcodeOf i) (indexOf i), portsOf i⟩

/-- The mnemonic of an instruction, as spec/opcode_table.json has it. -/
def mnemonicOf : Instr → String
  | .vsid _ _ => "VSID"
  | .vsidea _ _ => "VSIDEA"
  | .pteenc _ => "PTEENC"
  | .ptedec _ _ => "PTEDEC"
  | .ppchk _ _ => "PPCHK"
  | .batsize _ _ => "BATSIZE"
  | .batfree => "BATFREE"
  | .batpenc _ => "BATPENC"
  | .batpdec _ => "BATPDEC"
  | .batuenc _ _ _ _ => "BATUENC"
  | .batlenc _ _ _ => "BATLENC"
  | .batwr _ _ _ => "BATWR"
  | .batrd _ => "BATRD"
  | .srinst _ => "SRINST"
  | .srsync => "SRSYNC"
  | .srwr _ _ => "SRWR"
  | .srrd _ => "SRRD"
  | .uenter => "UENTER"

end Sys2Proof
end

