-- ==== Sys2Proof/Config.lean ====
section
/-! DEFINITION. The four configuration parameters of 00_scope.md R9. The spec leaves no value of a result open, so there is
no free value here (INVENTORY.md, 'What the manual leaves open'). -/

namespace Sys2Proof

/-- The parameters of one build of the block (00_scope.md R9), each within the range the rule states.
They are fixed before reset and no command changes them (70_reset_and_hazards.md R220). -/
structure Params where
  /-- EXT_PHYS: built for extended (more than 32-bit) physical addressing. -/
  extPhys : Bool
  /-- N_BAT: the number of BAT register pairs. -/
  nBat : Nat
  /-- NUM_USER_SEGMENTS: how many segment slots lie below the user address ceiling (43_segment_install.md R160). -/
  numUserSegments : Nat
  /-- SYNC_REQUIRED: this variant needs a barrier after a segment-register write (70_reset_and_hazards.md R225). -/
  syncRequired : Bool
  nBat_pos : 1 ≤ nBat
  nBat_le : nBat ≤ 16
  numUserSegments_le : numUserSegments ≤ 16
deriving DecidableEq, Repr

/-- DESIGN CHOICE (log 4): the parameters of `State.reset`, the conventions of 95_test_vectors.md
(EXT_PHYS false, N_BAT 4, NUM_USER_SEGMENTS 16, SYNC_REQUIRED true). -/
def Params.testConventions : Params where
  extPhys := false
  nBat := 4
  numUserSegments := 16
  syncRequired := true
  nBat_pos := by decide
  nBat_le := by decide
  numUserSegments_le := by decide

end Sys2Proof
end

