-- ==== Sys2Proof/Machine/State.lean ====
section
/-! DEFINITION. The state of the block (10_state.md R20), its responses (30_encoding.md R56, 60_exceptions.md R200), and the
state after reset (70_reset_and_hazards.md R220). -/

namespace Sys2Proof.Machine

/-- The status codes of 60_exceptions.md R200, in the order of their numbers 0 to 12. -/
inductive Status where
  | ok
  | illegalCmd
  | badIndex
  | encRange
  | encAlign
  | decReserved
  | decMalformed
  | rangeOrder
  | noSize
  | unsupported
  | faultUninit
  | faultHazard
  | halted
deriving DecidableEq, Repr

/-- The reasons a sticky fault records (10_state.md R32). -/
inductive FaultReason where
  | uninit
  | hazard
deriving DecidableEq, Repr

/-- `faults`: which reasons have been recorded since reset (10_state.md R32), a subset of the two. -/
structure FaultSet where
  uninit : Bool
  hazard : Bool
deriving DecidableEq, Repr

/-- The fields of a page-table entry at their own widths, in layout order (41_pte_codec.md R110). -/
structure PteFields where
  v : BitVec 1
  vsid : BitVec 24
  h : BitVec 1
  api : BitVec 6
  rpn : BitVec 20
  xpn : BitVec 3
  r : BitVec 1
  c : BitVec 1
  w : BitVec 1
  i : BitVec 1
  m : BitVec 1
  g : BitVec 1
  pp : BitVec 2
deriving DecidableEq, Repr

/-- The named results of 30_encoding.md R53, at the widths that rule gives them. -/
inductive Results where
  /-- BATWR, SRSYNC, SRWR and UENTER return no result. -/
  | empty
  | vsid (vsid : BitVec 24)
  | vsidSeg (vsid : BitVec 24) (seg : BitVec 4)
  | pteWords (w0 w1 : Word)
  | pteFields (fields : PteFields) (ppn : BitVec 23)
  | rights (rights : BitVec 2)
  | batSize (size : BitVec 29) (code : BitVec 11) (aligned : BitVec 1)
  /-- `index` is absent when `found` is 0 (42_bat.md R136). -/
  | batIndex (found : BitVec 1) (index : Option (BitVec 4))
  | batBits (bits : Word)
  | batPa (pa : PhysAddr)
  | batUpper (upper : Word)
  | batLower (lower : Word)
  | batPair (upper lower : Word)
  /-- `log` holds one (slot, value) entry per register written, in write order (43_segment_install.md R163). -/
  | installed (count : BitVec 5) (log : List (BitVec 4 × Word))
  | srValue (value : Word)
deriving DecidableEq, Repr

/-- The one response of a command (30_encoding.md R56); `results` is absent when the status is not `ok`. -/
structure Response where
  status : Status
  info : Nat
  results : Option Results
deriving DecidableEq, Repr

/-- The two words of a BAT register pair (10_state.md R26). -/
structure BatPair where
  upper : Word
  lower : Word
deriving DecidableEq, Repr

/-- What the host may do to the block (70_reset_and_hazards.md R229): present a command, or reset it. -/
inductive HostEvent where
  | command (c : Command)
  | reset
deriving DecidableEq, Repr

/-- The state. `sr`, `bat`, `syncPending` and `faults` are the block's whole architectural state (10_state.md R20).
A register that is `none` is `unwritten`, a value of the register that the spec itself defines (R22, R26; log 2).
`params`, `inbox` and `response` are the model's own (logs 3, 5 and 7). -/
structure State where
  /-- The configuration (00_scope.md R9); no step changes it. -/
  params : Params
  /-- SR[0] to SR[15] (10_state.md R22). -/
  sr : Vector (Option Word) 16
  /-- BAT[0] to BAT[N_BAT-1] (10_state.md R26); the cells from N_BAT on do not exist and stay `none` (log 13). -/
  bat : Vector (Option BatPair) 16
  /-- `sr_sync_pending` (10_state.md R30). -/
  syncPending : Bool
  /-- The sticky fault set (10_state.md R32). -/
  faults : FaultSet
  /-- What the host has presented and the block has not yet taken, oldest first. -/
  inbox : List HostEvent
  /-- The response port: the response to the last command since reset. No command reads it (10_state.md R21). -/
  response : Option Response
deriving DecidableEq, Repr

/-- The machine right after reset with the parameters `p`: the values of 70_reset_and_hazards.md R220. -/
def State.resetWith (p : Params) : State where
  params := p
  sr := Vector.replicate 16 none
  bat := Vector.replicate 16 none
  syncPending := false
  faults := ⟨false, false⟩
  inbox := []
  response := none

/-- The machine right after reset, for the parameters of 95_test_vectors.md (log 4). -/
def State.reset : State := State.resetWith Params.testConventions

/-- The reasons a step could stop the machine. There is none: every error the spec describes is a response after which the
block goes on, if only to answer HALTED (60_exceptions.md R203, R206; log 14). -/
inductive Fault where
deriving DecidableEq, Repr

/-- The reasons a step is refused. -/
inductive Refusal where
  /-- Raised by an arm of `exec` whose instruction has no meaning yet; no arm raises it. Safe. -/
  | notModelled (mnemonic : String)
  /-- Raised when a presented command has not as many port values as its opcode has ports: it spells no command and never
  reaches the block (30_encoding.md R52; log 9). Safe. -/
  | portCount
  /-- Raised when the value presented on this port is outside the port's width: it spells no command and never reaches the
  block (30_encoding.md R52; log 9). Safe. -/
  | portRange (port : Nat)
deriving DecidableEq, Repr

end Sys2Proof.Machine
end

