-- ==== Sys2Proof/Machine/Flags.lean ====
section
/-! DEFINITION. The block has no condition codes (10_state.md R21). What it has of the kind is here: the status codes
(60_exceptions.md R200), the sticky fault set (10_state.md R32) and the barrier flag (R30). -/

namespace Sys2Proof.Machine

/-- The number of a status code (60_exceptions.md R200). -/
def statusCode : Status → Nat
  | .ok => 0
  | .illegalCmd => 1
  | .badIndex => 2
  | .encRange => 3
  | .encAlign => 4
  | .decReserved => 5
  | .decMalformed => 6
  | .rangeOrder => 7
  | .noSize => 8
  | .unsupported => 9
  | .faultUninit => 10
  | .faultHazard => 11
  | .halted => 12

/-- The status that a sticky fault returns (60_exceptions.md R203). -/
def stickyStatus : FaultReason → Status
  | .uninit => .faultUninit
  | .hazard => .faultHazard

/-- The fault set with a reason recorded; nothing but reset removes one (10_state.md R32). -/
def addFault (f : FaultSet) : FaultReason → FaultSet
  | .uninit => { f with uninit := true }
  | .hazard => { f with hazard := true }

/-- The block is halted while `faults` is non-empty (10_state.md R32). -/
def isHalted (s : State) : Bool := s.faults.uninit || s.faults.hazard

/-- The state with `sr_sync_pending` replaced. -/
def setSync (s : State) (b : Bool) : State := { s with syncPending := b }

/-- What a segment-register write does to `sr_sync_pending`: set when SYNC_REQUIRED is true, else unchanged (10_state.md R30). -/
def noteSrWrite (s : State) : State := if s.params.syncRequired then setSync s true else s

end Sys2Proof.Machine
end

