-- ==== Sys2Proof/Machine/Operands.lean ====
section
/-! DEFINITION. The arithmetic and the bit layouts of the commands' operands and results: the VSID function, the page-table
entry, the block sizes, the BAT words and addresses, and the installer's values. -/

namespace Sys2Proof.Machine

/-! ## VSID mapper (40_vsid.md) -/

/-- The VSID function: exact on naturals and reduced once, to 24 bits (40_vsid.md R100). -/
def vsidOf (ctx : Word) (seg : BitVec 4) : BitVec 24 := BitVec.ofNat 24 (ctx.toNat * 0x3810 + seg.toNat * 0x111)

/-- The segment of an effective address, EA[31:28] (40_vsid.md R102). -/
def segmentOf (ea : Word) : BitVec 4 := ea.extractLsb' 28 4

/-! ## Page-table entry (41_pte_codec.md) -/

/-- The ports of PTEENC with their field widths, in layout order (41_pte_codec.md R115). -/
def pteChecks (p : PtePorts) : List (Word × Nat) :=
  [(p.v, 1), (p.vsid, 24), (p.h, 1), (p.api, 6), (p.rpn, 20), (p.xpn, 3), (p.r, 1), (p.c, 1), (p.w, 1), (p.i, 1),
   (p.m, 1), (p.g, 1), (p.pp, 2)]

/-- The index, counted from `k`, of the first value that is not below 2^width. -/
def firstTooWide (k : Nat) : List (Word × Nat) → Option Nat
  | [] => none
  | (x, width) :: rest => if x.toNat ≥ 2 ^ width then some k else firstTooWide (k + 1) rest

/-- The ports of PTEENC narrowed to their fields, for ports that passed the checks. -/
def pteNarrow (p : PtePorts) : PteFields where
  v := p.v.setWidth 1
  vsid := p.vsid.setWidth 24
  h := p.h.setWidth 1
  api := p.api.setWidth 6
  rpn := p.rpn.setWidth 20
  xpn := p.xpn.setWidth 3
  r := p.r.setWidth 1
  c := p.c.setWidth 1
  w := p.w.setWidth 1
  i := p.i.setWidth 1
  m := p.m.setWidth 1
  g := p.g.setWidth 1
  pp := p.pp.setWidth 2

/-- Word 0 of an entry: V, VSID, H, API from the most significant bit down (41_pte_codec.md R111, R112). -/
def pteWord0 (f : PteFields) : Word := f.v ++ f.vsid ++ f.h ++ f.api

/-- Word 1 of an entry: RPN, XPN, R, C, W, I, M, G, the reserved bit (0), PP (41_pte_codec.md R111, R113). -/
def pteWord1 (f : PteFields) : Word := f.rpn ++ f.xpn ++ f.r ++ f.c ++ f.w ++ f.i ++ f.m ++ f.g ++ 0#1 ++ f.pp

/-- The fields of an entry, each cut out at its place (41_pte_codec.md R112, R113, R116). -/
def pteSplit (w0 w1 : Word) : PteFields where
  v := w0.extractLsb' 31 1
  vsid := w0.extractLsb' 7 24
  h := w0.extractLsb' 6 1
  api := w0.extractLsb' 0 6
  rpn := w1.extractLsb' 12 20
  xpn := w1.extractLsb' 9 3
  r := w1.extractLsb' 8 1
  c := w1.extractLsb' 7 1
  w := w1.extractLsb' 6 1
  i := w1.extractLsb' 5 1
  m := w1.extractLsb' 4 1
  g := w1.extractLsb' 3 1
  pp := w1.extractLsb' 0 2

/-- The reserved bit of word 1 (41_pte_codec.md R113). -/
def pteReserved (w1 : Word) : BitVec 1 := w1.extractLsb' 2 1

/-- The full physical page number: XPN above RPN (41_pte_codec.md R114). -/
def ppnOf (f : PteFields) : BitVec 23 := f.xpn ++ f.rpn

/-- The protection code table: 0 none, 1 read, 2 read and write (41_pte_codec.md R118, R119). -/
def rightsOf (pp : BitVec 2) (key : BitVec 1) : BitVec 2 :=
  match key.toNat, pp.toNat with
  | 0, 3 => 1
  | 0, _ => 2
  | _, 0 => 0
  | _, 2 => 2
  | _, _ => 1

/-! ## BAT blocks (42_bat.md) -/

/-- The exponent of the block size chosen for a length of at least 2^17: `min(28, floor_log2(len))` (42_bat.md R132). -/
def blockExponent (len : Nat) : Nat := min 28 (Nat.log2 len)

/-- The block size code of a size (42_bat.md R131). -/
def sizeCode (size : Nat) : Nat := size / 2 ^ 17 - 1

/-- The size of a legal block size code (42_bat.md R131). -/
def codeSize (code : Nat) : Nat := (code + 1) * 2 ^ 17

/-- The twelve legal codes, `2^j - 1` for j from 0 to 11 (42_bat.md R131, R142). -/
def legalCode (code : Nat) : Bool := (List.range 12).any fun j => code == 2 ^ j - 1

/-- A pair is free when both validity bits of its upper word are clear (42_bat.md R135). -/
def isFree (p : BatPair) : Bool := p.upper.extractLsb' 0 2 == 0

/-- The least physical address that is out of the mode's range (42_bat.md R140). -/
def paLimit (extPhys : Bool) : Nat := if extPhys then 2 ^ 34 else 2 ^ 32

/-- `enc32` (42_bat.md R138), for an address below 2^32. -/
def enc32 (pa : PhysAddr) : Word := pa.setWidth 32

/-- `encX` (42_bat.md R139): PA[33:17] at bits 17:1 and PA[32] at bit 0. -/
def encX (pa : PhysAddr) : Word := ((pa >>> 16 &&& 0x3FFFE) ||| (pa >>> 32 &&& 1)).setWidth 32

/-- `dec32` (42_bat.md R138). -/
def dec32 (bits : Word) : PhysAddr := (bits &&& 0xFFFE0000).setWidth 64

/-- `decX` (42_bat.md R139), for bits that pass its two requirements. -/
def decX (bits : Word) : PhysAddr := (bits &&& 0x3FFFE).setWidth 64 <<< 16

/-- The requirements of `decX`: bits 31:18 are 0 and bit 0 equals bit 16 (42_bat.md R139, R141). -/
def extFieldOk (bits : Word) : Bool := bits.extractLsb' 18 14 == 0 && bits.extractLsb' 0 1 == bits.extractLsb' 16 1

/-- A physical address encoded for a BAT, or the status that refuses it: the range before the alignment (42_bat.md R140). -/
def encodeBatPa (extPhys : Bool) (pa : PhysAddr) : Except Status Word :=
  if pa.toNat ≥ paLimit extPhys then .error .encRange
  else if pa.toNat % 2 ^ 17 ≠ 0 then .error .encAlign
  else .ok (if extPhys then encX pa else enc32 pa)

/-- The composition of an upper word (42_bat.md R142, layout 10_state.md R27). -/
def upperWord (ea code : Word) (vs vp : BitVec 1) : Word :=
  ea ||| code <<< 2 ||| vs.setWidth 32 <<< 1 ||| vp.setWidth 32

/-- The composition of a lower word (42_bat.md R143, layout 10_state.md R28). -/
def lowerWord (field wimg pp : Word) : Word := field ||| wimg <<< 3 ||| pp

/-- BEPI of an upper word (10_state.md R27). -/
def upperBepi (upper : Word) : BitVec 15 := upper.extractLsb' 17 15

/-- The reserved bits 16:13 of an upper word (10_state.md R27). -/
def upperRsv (upper : Word) : BitVec 4 := upper.extractLsb' 13 4

/-- BL of an upper word (10_state.md R27). -/
def upperBl (upper : Word) : BitVec 11 := upper.extractLsb' 2 11

/-- Vs of an upper word (10_state.md R27). -/
def upperVs (upper : Word) : BitVec 1 := upper.extractLsb' 1 1

/-- Vp of an upper word (10_state.md R27). -/
def upperVp (upper : Word) : BitVec 1 := upper.extractLsb' 0 1

/-- BRPN of a lower word, EXT_PHYS false (10_state.md R28). -/
def lowerBrpn (lower : Word) : BitVec 15 := lower.extractLsb' 17 15

/-- WIMG of a lower word, EXT_PHYS false (10_state.md R28). -/
def lowerWimg (lower : Word) : BitVec 4 := lower.extractLsb' 3 4

/-- The reserved bits 16:7 of a lower word, EXT_PHYS false (10_state.md R28). -/
def lowerRsvHigh (lower : Word) : BitVec 10 := lower.extractLsb' 7 10

/-- The reserved bit 2 of a lower word, EXT_PHYS false (10_state.md R28). -/
def lowerRsvLow (lower : Word) : BitVec 1 := lower.extractLsb' 2 1

/-- PP of a lower word, EXT_PHYS false (10_state.md R28). -/
def lowerPp (lower : Word) : BitVec 2 := lower.extractLsb' 0 2

/-! ## Segment registers (43_segment_install.md) -/

/-- The seed mask (43_segment_install.md R161). -/
def maskSeed (seed : Word) : Word := seed &&& 0xF0FFFFFF

/-- The value SRINST gives slot `n` (43_segment_install.md R162). -/
def installValue (seed : Word) (n : Nat) : Word := BitVec.ofNat 32 ((maskSeed seed).toNat + n * 0x111)

/-- A slot is eligible when it lies below the user ceiling (43_segment_install.md R160). -/
def eligible (p : Params) (n : Nat) : Bool := n < p.numUserSegments

/-- The writes of one SRINST in ascending slot order, one entry per eligible slot (43_segment_install.md R162, R163). -/
def installLog (p : Params) (seed : Word) : List (BitVec 4 × Word) :=
  ((List.range 16).filter fun n => eligible p n).map fun n => (BitVec.ofNat 4 n, installValue seed n)

/-- FLAGS of a segment-register word (10_state.md R23). -/
def srFlags (word : Word) : BitVec 4 := word.extractLsb' 28 4

/-- T of a segment-register word (10_state.md R23; log 25). -/
def srT (word : Word) : BitVec 1 := word.extractLsb' 31 1

/-- Ks of a segment-register word (10_state.md R23; log 25). -/
def srKs (word : Word) : BitVec 1 := word.extractLsb' 30 1

/-- Kp of a segment-register word (10_state.md R23; log 25). -/
def srKp (word : Word) : BitVec 1 := word.extractLsb' 29 1

/-- N, no-execute, of a segment-register word (10_state.md R23; log 25). -/
def srN (word : Word) : BitVec 1 := word.extractLsb' 28 1

/-- The reserved bits 27:24 of a segment-register word (10_state.md R23). -/
def srRsv (word : Word) : BitVec 4 := word.extractLsb' 24 4

/-- VSID of a segment-register word (10_state.md R23). -/
def srVsid (word : Word) : BitVec 24 := word.extractLsb' 0 24

end Sys2Proof.Machine
end

