-- ==== Sys2Proof/Machine/Ops.lean ====
section
/-! DEFINITION. The named operations on registers and responses that every meaning is made of: ending a command (00_scope.md
R14), recording a sticky fault (60_exceptions.md R203) and leaving it by reset (R206), and reading and writing registers. -/

namespace Sys2Proof.Machine

/-- The outcome of a step of this machine. -/
abbrev Result := Host.Outcome State Fault Refusal

/-- The state with its response port showing `r`. -/
def respond (s : State) (r : Response) : State := { s with response := some r }

/-- `ret(OK, results)` (00_scope.md R14): the command ends with status OK and info 0 (30_encoding.md R56). -/
def ret (s : State) (results : Results) : Result := .next (respond s ⟨.ok, 0, some results⟩)

/-- `raise <Status>(info)` of a non-sticky status (00_scope.md R14): no state changes and the results are absent
(30_encoding.md R56, 60_exceptions.md R203). -/
def raise (s : State) (status : Status) (info : Nat) : Result := .next (respond s ⟨status, info, none⟩)

/-- The state with a reason recorded (10_state.md R32). -/
def recordFault (s : State) (reason : FaultReason) : State := { s with faults := addFault s.faults reason }

/-- `fault <Reason>` (00_scope.md R14), the one way an exceptional condition is taken: the reason is recorded, the sticky
status is returned, the results are absent and nothing else changes (60_exceptions.md R203). -/
def takeFault (s : State) (reason : FaultReason) (info : Nat) : Result :=
  .next (respond (recordFault s reason) ⟨stickyStatus reason, info, none⟩)

/-- The way out of a recorded fault, and the only one (60_exceptions.md R206): the host resets the block. The parameters do
not change at reset (70_reset_and_hazards.md R220), and what the host still presents stays presented (log 8). -/
def resetBlock (s : State) : State := { State.resetWith s.params with inbox := s.inbox }

/-- The check before all others: a halted block answers HALTED and changes nothing (60_exceptions.md R202, R206). -/
def unlessHalted (s : State) (body : Result) : Result := if isHalted s then raise s .halted 0 else body

/-- `SR[n]`, `none` when it is unwritten (10_state.md R22). -/
def readSr (s : State) (n : BitVec 4) : Option Word := s.sr[n.toNat]

/-- `SR[n] <- v`: all 32 bits as given (10_state.md R23, 20_memory.md R44). -/
def writeSr (s : State) (n : BitVec 4) (v : Word) : State := { s with sr := s.sr.set n.toNat (some v) }

/-- `BAT[i]`, `none` when it is unwritten (10_state.md R26). -/
def readBat (s : State) (i : BitVec 4) : Option BatPair := s.bat[i.toNat]

/-- `BAT[i] <- (u, l)`: both words at once, as given (42_bat.md R145). -/
def writeBat (s : State) (i : BitVec 4) (p : BatPair) : State := { s with bat := s.bat.set i.toNat (some p) }

/-- Go on with the value of SR[n], or fault UNINIT with info 16 + n when it is unwritten (60_exceptions.md R204). -/
def withSr (s : State) (n : BitVec 4) (k : Word → Result) : Result :=
  match readSr s n with
  | none => takeFault s .uninit (16 + n.toNat)
  | some v => k v

/-- Go on with BAT pair i, or fault UNINIT with info i when it is unwritten (60_exceptions.md R204). -/
def withBat (s : State) (i : BitVec 4) (k : BatPair → Result) : Result :=
  match readBat s i with
  | none => takeFault s .uninit i.toNat
  | some p => k p

/-- Go on when BAT pair i exists, or raise BAD_INDEX with info i (42_bat.md R145, R146). -/
def checkBatIndex (s : State) (i : BitVec 4) (body : Result) : Result :=
  if i.toNat ≥ s.params.nBat then raise s .badIndex i.toNat else body

/-- The indices of the BAT pairs that exist, ascending (42_bat.md R136). -/
def batIndices (p : Params) : List (BitVec 4) := (List.range p.nBat).map (BitVec.ofNat 4)

/-- The scan of BATFREE over the pairs of a list of indices: it stops at the first free pair, and faults at an unwritten one
it meets before that (42_bat.md R136). -/
def scanBats (s : State) : List (BitVec 4) → Result
  | [] => ret s (.batIndex 0 none)
  | i :: rest => withBat s i fun p => if isFree p then ret s (.batIndex 1 (some i)) else scanBats s rest

/-- The writes of a log, in its order (43_segment_install.md R163). -/
def writeSrs (s : State) (log : List (BitVec 4 × Word)) : State := log.foldl (fun t e => writeSr t e.1 e.2) s

end Sys2Proof.Machine
end

