-- ==== Sys2Proof/Machine/Bat.lean ====
section
/-! DEFINITION. The meanings of the BAT allocator's commands (42_bat.md). -/

namespace Sys2Proof.Machine

/-- BATSIZE (42_bat.md R132): the order, then the least length, then the size, its code and the alignment of `base`. -/
def execBatsize (base top : PhysAddr) (s : State) : Result :=
  unlessHalted s <|
    if base.toNat > top.toNat then raise s .rangeOrder 0
    else if top.toNat - base.toNat < 2 ^ 17 then raise s .noSize 0
    else
      let size := 2 ^ blockExponent (top.toNat - base.toNat)
      ret s (.batSize (BitVec.ofNat 29 size) (BitVec.ofNat 11 (sizeCode size))
        (if base.toNat % size = 0 then 1 else 0))

/-- BATFREE (42_bat.md R136): scan the pairs in ascending order. -/
def execBatfree (s : State) : Result := unlessHalted s (scanBats s (batIndices s.params))

/-- BATPENC (42_bat.md R140). -/
def execBatpenc (pa : PhysAddr) (s : State) : Result :=
  unlessHalted s <|
    match encodeBatPa s.params.extPhys pa with
    | .error status => raise s status 0
    | .ok bits => ret s (.batBits bits)

/-- BATPDEC (42_bat.md R141). -/
def execBatpdec (bits : Word) (s : State) : Result :=
  unlessHalted s <|
    if s.params.extPhys then
      if extFieldOk bits then ret s (.batPa (decX bits)) else raise s .decMalformed bits.toNat
    else ret s (.batPa (dec32 bits))

/-- BATUENC (42_bat.md R142): the code, then the alignment of `ea` to the code's size. -/
def execBatuenc (ea code : Word) (vs vp : BitVec 1) (s : State) : Result :=
  unlessHalted s <|
    if legalCode code.toNat = false then raise s .encRange 1
    else if ea.toNat % codeSize code.toNat ≠ 0 then raise s .encAlign 0
    else ret s (.batUpper (upperWord ea code vs vp))

/-- BATLENC (42_bat.md R143): the mode, then `pa` as BATPENC checks it, then WIMG, then PP. -/
def execBatlenc (pa : PhysAddr) (wimg pp : Word) (s : State) : Result :=
  unlessHalted s <|
    if s.params.extPhys then raise s .unsupported 0
    else
      match encodeBatPa s.params.extPhys pa with
      | .error status => raise s status 0
      | .ok field =>
        if wimg.toNat ≥ 16 then raise s .encRange 1
        else if pp.toNat ≥ 4 then raise s .encRange 2
        else ret s (.batLower (lowerWord field wimg pp))

/-- BATWR (42_bat.md R145). -/
def execBatwr (idx : BitVec 4) (upper lower : Word) (s : State) : Result :=
  unlessHalted s <| checkBatIndex s idx <| ret (writeBat s idx ⟨upper, lower⟩) .empty

/-- BATRD (42_bat.md R146). -/
def execBatrd (idx : BitVec 4) (s : State) : Result :=
  unlessHalted s <| checkBatIndex s idx <| withBat s idx fun p => ret s (.batPair p.upper p.lower)

end Sys2Proof.Machine
end

