-- ==== Sys2Proof/Machine/Pte.lean ====
section
/-! DEFINITION. The meanings of the hash page-table entry codec's commands (41_pte_codec.md). -/

namespace Sys2Proof.Machine

/-- PTEENC (41_pte_codec.md R115): the widths in layout order, then XPN without EXT_PHYS, then the words. -/
def execPteenc (ports : PtePorts) (s : State) : Result :=
  unlessHalted s <|
    match firstTooWide 0 (pteChecks ports) with
    | some k => raise s .encRange k
    | none =>
      if s.params.extPhys = false ∧ ports.xpn ≠ 0 then raise s .encRange 5
      else ret s (.pteWords (pteWord0 (pteNarrow ports)) (pteWord1 (pteNarrow ports)))

/-- PTEDEC (41_pte_codec.md R116): the reserved bit, then XPN without EXT_PHYS, then the fields. -/
def execPtedec (w0 w1 : Word) (s : State) : Result :=
  unlessHalted s <|
    if pteReserved w1 ≠ 0 then raise s .decReserved 2
    else if s.params.extPhys = false ∧ (pteSplit w0 w1).xpn ≠ 0 then raise s .decReserved 11
    else ret s (.pteFields (pteSplit w0 w1) (ppnOf (pteSplit w0 w1)))

/-- PPCHK (41_pte_codec.md R119). -/
def execPpchk (pp : BitVec 2) (key : BitVec 1) (s : State) : Result := unlessHalted s (ret s (.rights (rightsOf pp key)))

end Sys2Proof.Machine
end

