-- ==== Sys2Proof/Machine/Segment.lean ====
section
/-! DEFINITION. The meanings of the segment register installer's commands (43_segment_install.md). -/

namespace Sys2Proof.Machine

/-- SRINST (43_segment_install.md R162): every eligible register in one step, then the barrier flag. -/
def execSrinst (seed : Word) (s : State) : Result :=
  unlessHalted s <|
    ret (noteSrWrite (writeSrs s (installLog s.params seed)))
      (.installed (BitVec.ofNat 5 s.params.numUserSegments) (installLog s.params seed))

/-- SRSYNC (43_segment_install.md R168). -/
def execSrsync (s : State) : Result := unlessHalted s (ret (setSync s false) .empty)

/-- SRWR (43_segment_install.md R166): no mask and no eligibility test. -/
def execSrwr (idx : BitVec 4) (value : Word) (s : State) : Result :=
  unlessHalted s (ret (noteSrWrite (writeSr s idx value)) .empty)

/-- SRRD (43_segment_install.md R167). -/
def execSrrd (idx : BitVec 4) (s : State) : Result := unlessHalted s <| withSr s idx fun v => ret s (.srValue v)

/-- UENTER (43_segment_install.md R169). -/
def execUenter (s : State) : Result :=
  unlessHalted s <| if s.syncPending then takeFault s .hazard 0 else ret s .empty

end Sys2Proof.Machine
end

