-- ==== Sys2Proof/Machine/Vsid.lean ====
section
/-! DEFINITION. The meanings of the VSID mapper's commands (40_vsid.md). -/

namespace Sys2Proof.Machine

/-- VSID (40_vsid.md R101). -/
def execVsid (ctx : Word) (seg : BitVec 4) (s : State) : Result := unlessHalted s (ret s (.vsid (vsidOf ctx seg)))

/-- VSIDEA (40_vsid.md R102). -/
def execVsidea (ctx ea : Word) (s : State) : Result :=
  unlessHalted s (ret s (.vsidSeg (vsidOf ctx (segmentOf ea)) (segmentOf ea)))

end Sys2Proof.Machine
end

