-- ==== Sys2Proof/Machine/Dispatch.lean ====
section
/-! DEFINITION. One arm per command of the opcode map (30_encoding.md R53). -/

namespace Sys2Proof.Machine

def exec (i : Instr) (s : State) : Host.Outcome State Fault Refusal :=
  match i with
  | .vsid ctx seg => Sys2Proof.Machine.execVsid ctx seg s
  | .vsidea ctx ea => Sys2Proof.Machine.execVsidea ctx ea s
  | .pteenc ports => Sys2Proof.Machine.execPteenc ports s
  | .ptedec w0 w1 => Sys2Proof.Machine.execPtedec w0 w1 s
  | .ppchk pp key => Sys2Proof.Machine.execPpchk pp key s
  | .batsize base top => Sys2Proof.Machine.execBatsize base top s
  | .batfree => Sys2Proof.Machine.execBatfree s
  | .batpenc pa => Sys2Proof.Machine.execBatpenc pa s
  | .batpdec bits => Sys2Proof.Machine.execBatpdec bits s
  | .batuenc ea code vs vp => Sys2Proof.Machine.execBatuenc ea code vs vp s
  | .batlenc pa wimg pp => Sys2Proof.Machine.execBatlenc pa wimg pp s
  | .batwr idx upper lower => Sys2Proof.Machine.execBatwr idx upper lower s
  | .batrd idx => Sys2Proof.Machine.execBatrd idx s
  | .srinst seed => Sys2Proof.Machine.execSrinst seed s
  | .srsync => Sys2Proof.Machine.execSrsync s
  | .srwr idx value => Sys2Proof.Machine.execSrwr idx value s
  | .srrd idx => Sys2Proof.Machine.execSrrd idx s
  | .uenter => Sys2Proof.Machine.execUenter s

end Sys2Proof.Machine
end

