-- ==== Sys2Proof/Machine/Port.lean ====
section
/-! DEFINITION. The command port: how the block takes what the host presents (30_encoding.md R50 to R55,
70_reset_and_hazards.md R229). -/

namespace Sys2Proof.Machine

/-- The state with its inbox replaced. -/
def withInbox (s : State) (events : List HostEvent) : State := { s with inbox := events }

/-- The block takes one presented command. A command that spells an instruction is executed. A word that is no row's answers
ILLEGAL_CMD with the word as info (30_encoding.md R55), or HALTED, which is checked before decoding (60_exceptions.md R202).
Port values that do not fit are refused at the boundary and the block never sees them (30_encoding.md R52; logs 9 and 10). -/
def takeCommand (c : Command) (s : State) : Result :=
  match decode c with
  | .ok i => exec i s
  | .error .portCount => .refused .portCount
  | .error (.portRange k) => .refused (.portRange k)
  | .error .reservedOpcode => unlessHalted s (raise s .illegalCmd c.word.toNat)
  | .error .reservedBits => unlessHalted s (raise s .illegalCmd c.word.toNat)
  | .error .unusedIndex => unlessHalted s (raise s .illegalCmd c.word.toNat)

/-- The block takes the oldest event the host has presented, one at a time and in order (20_memory.md R47). With none presented
it waits (70_reset_and_hazards.md R221; log 6). -/
def takeEvent (s : State) : Result :=
  match s.inbox with
  | [] => .next s
  | .reset :: rest => .next (resetBlock (withInbox s rest))
  | .command c :: rest => takeCommand c (withInbox s rest)

/-- `s` with one more event presented, to be taken next. -/
def presentNext (s : State) (e : HostEvent) : State := withInbox s (e :: s.inbox)

/-- `s` with a sequence of instructions presented after what the host has presented already. -/
def present (s : State) (is : List Instr) : State := withInbox s (s.inbox ++ is.map fun i => .command (encode i))

end Sys2Proof.Machine
end

