-- ==== Sys2Proof/Machine/Step.lean ====
section
/-! DEFINITION. One step of the block, and where the host's next command is placed. -/

namespace Sys2Proof.Machine

/-- One atomic step (20_memory.md R44, 70_reset_and_hazards.md R228). -/
def step (s : State) : Host.Outcome State Fault Refusal := takeEvent s

/-- `s` with the command whose word has the bits `w`, every port 0, presented as the next command (logs 11 and 12). A number of
more than `nbits` bits is cut to them. -/
def State.withFetchWord (s : State) (nbits w : Nat) : State :=
  presentNext s (.command (commandOfWord (BitVec.ofNat 32 (w % 2 ^ nbits))))

end Sys2Proof.Machine
end

