-- ==== Sys2Proof/Machine/Assembler.lean ====
section
/-! DEFINITION. The assembler syntax (30_encoding.md R57) and the pseudo-commands (R58): what a host writes to obtain the
commands it presents. Nothing here is part of the block. -/

namespace Sys2Proof.Machine

/-- One line of assembly after reading: `MNEMONIC[.IDX] [port=value, ...]` (30_encoding.md R57). -/
structure AsmLine where
  mnemonic : String
  idx : Option Nat
  ports : List (String × Nat)
deriving DecidableEq, Repr

/-- Whether a row uses IDX: its mask leaves bits 3:0 out (30_encoding.md R54). -/
def rowUsesIdx (row : Row) : Bool := row.mask == 0xFFFFFFF0

/-- `.IDX` is present exactly when the command uses IDX, and it is a register index (30_encoding.md R57). -/
def lineIndex (row : Row) : Option Nat → Option (BitVec 4)
  | some n => if rowUsesIdx row ∧ n < 16 then some (BitVec.ofNat 4 n) else none
  | none => if rowUsesIdx row then none else some 0

/-- The values a line gives for these names. -/
def lookupPorts (given : List (String × Nat)) : List (String × Nat) → Option (List Nat)
  | [] => some []
  | port :: rest =>
    match given.lookup port.1, lookupPorts given rest with
    | some v, some vs => some (v :: vs)
    | _, _ => none

/-- Ports are given by name in any order, and every port of the command must be given (30_encoding.md R57).
DESIGN CHOICE (log 23): a port of another name, or one given twice, makes the line no command. -/
def linePorts (want given : List (String × Nat)) : Option (List Nat) :=
  if given.length = want.length then lookupPorts given want else none

/-- The encoding of a line: `(OPC << 24) | IDX`, plus its port values (30_encoding.md R57). -/
def assemble (line : AsmLine) : Option Command :=
  match opcodeTable.find? fun row => row.mnemonic == line.mnemonic with
  | none => none
  | some row =>
    match lineIndex row line.idx, linePorts row.ports line.ports with
    | some idx, some values => some ⟨row.pattern ||| idx.setWidth 32, values⟩
    | _, _ => none

/-- `SWITCHCTX seed=S` (30_encoding.md R58). -/
def switchCtx (seed : Word) : List Instr := [.srinst seed, .srsync]

/-- `BATCLR.i` (30_encoding.md R58). -/
def batClr (i : BitVec 4) : List Instr := [.batwr i 0 0]

/-- `BATINIT` (30_encoding.md R58): BATCLR.0 to BATCLR.(N_BAT-1). -/
def batInit (p : Params) : List Instr := (batIndices p).flatMap batClr

/-- A line of a pseudo-command written out; any other line stands for itself (30_encoding.md R58). -/
def expandLine (p : Params) (line : AsmLine) : List AsmLine :=
  if line.mnemonic = "SWITCHCTX" then [{ line with mnemonic := "SRINST" }, ⟨"SRSYNC", none, []⟩]
  else if line.mnemonic = "BATCLR" then
    [{ line with mnemonic := "BATWR", ports := line.ports ++ [("upper", 0), ("lower", 0)] }]
  else if line.mnemonic = "BATINIT" ∧ line.idx = none ∧ line.ports = [] then
    (List.range p.nBat).map fun n => ⟨"BATWR", some n, [("upper", 0), ("lower", 0)]⟩
  else [line]

/-- The line that spells an instruction. -/
def lineOf (i : Instr) : AsmLine :=
  match rowOf (encode i).word with
  | none => ⟨mnemonicOf i, none, []⟩
  | some row =>
    ⟨mnemonicOf i, if rowUsesIdx row then some (indexOf i).toNat else none,
      (row.ports.map Prod.fst).zip (portsOf i)⟩

/-! Reading text. -/

/-- DESIGN CHOICE (log 23): blanks are space, tab and carriage return. -/
def isBlank (c : Char) : Bool := c == ' ' || c == '\t' || c == '\r'

/-- A text without the blanks at its two ends. -/
def trim (text : List Char) : List Char := ((text.dropWhile isBlank).reverse.dropWhile isBlank).reverse

/-- A text cut at its first `sep`: what stands before it, and what stands after it if it occurs. -/
def cutAt (sep : Char) (text : List Char) : List Char × Option (List Char) :=
  match text.dropWhile (· != sep) with
  | [] => (text, none)
  | _ :: after => (text.takeWhile (· != sep), some after)

/-- A text cut at every `sep`. -/
def splitAtEvery (sep : Char) : List Char → List (List Char)
  | [] => [[]]
  | c :: rest =>
    match splitAtEvery sep rest with
    | [] => [[c]]
    | piece :: pieces => if c == sep then [] :: piece :: pieces else (c :: piece) :: pieces

/-- The value of a decimal or hexadecimal digit. -/
def digitValue (c : Char) : Option Nat :=
  let n := c.toNat
  if 48 ≤ n ∧ n ≤ 57 then some (n - 48)
  else if 97 ≤ n ∧ n ≤ 102 then some (n - 87)
  else if 65 ≤ n ∧ n ≤ 70 then some (n - 55)
  else none

/-- The number that a run of digits spells in a base, on top of `acc`. -/
def readDigits (base acc : Nat) : List Char → Option Nat
  | [] => some acc
  | c :: rest =>
    match digitValue c with
    | none => none
    | some d => if d < base then readDigits base (acc * base + d) rest else none

/-- Decimal or `0x` hexadecimal naturals (30_encoding.md R57). -/
def readNumber : List Char → Option Nat
  | [] => none
  | ['0', 'x'] => none
  | '0' :: 'x' :: digits => readDigits 16 0 digits
  | digits => readDigits 10 0 digits

/-- A decimal register index (30_encoding.md R57). -/
def readIndex : List Char → Option Nat
  | [] => none
  | digits => readDigits 10 0 digits

/-- One `port=value`. -/
def readPort (text : List Char) : Option (String × Nat) :=
  match cutAt '=' text with
  | (_, none) => none
  | (name, some value) =>
    match readNumber (trim value) with
    | none => none
    | some v => some (String.ofList (trim name), v)

/-- All of a list read, or nothing. -/
def readPorts : List (List Char) → Option (List (String × Nat))
  | [] => some []
  | piece :: pieces =>
    match readPort piece, readPorts pieces with
    | some port, some ports => some (port :: ports)
    | _, _ => none

/-- A line of text: nothing when it is blank or a comment, `none` when it is malformed (30_encoding.md R57). -/
def readLine (text : List Char) : Option (List AsmLine) :=
  let code := trim (cutAt ';' text).1
  let head := code.takeWhile fun c => !isBlank c
  let ports := trim (code.dropWhile fun c => !isBlank c)
  if code = [] then some []
  else
    match readPorts (if ports = [] then [] else splitAtEvery ',' ports), cutAt '.' head with
    | none, _ => none
    | some values, (name, none) => some [⟨String.ofList name, none, values⟩]
    | some values, (name, some idx) =>
      match readIndex idx with
      | none => none
      | some n => some [⟨String.ofList name, some n, values⟩]

/-- All of a list of lines assembled, or nothing. -/
def assembleLines : List AsmLine → Option (List Command)
  | [] => some []
  | line :: lines =>
    match assemble line, assembleLines lines with
    | some c, some cs => some (c :: cs)
    | _, _ => none

/-- The commands that lines of text spell, one command or pseudo-command per line (30_encoding.md R57, R58). -/
def assembleText (p : Params) : List (List Char) → Option (List Command)
  | [] => some []
  | text :: texts =>
    match readLine text, assembleText p texts with
    | some lines, some after => (assembleLines (lines.flatMap (expandLine p))).map fun cs => cs ++ after
    | _, _ => none

end Sys2Proof.Machine
end

