-- ==== Sys2Proof/Machine/HostFormats.lean ====
section
/-! DEFINITION. What the spec fixes for the host's side of the block's words: the serialisation of a page-table entry
(20_memory.md R41) and the parameter that a user ceiling gives (43_segment_install.md R160). No command uses them. -/

namespace Sys2Proof.Machine

/-- A word as four bytes, most significant first (20_memory.md R41; UNVERIFIED of the hardware, log 22). -/
def wordBytes (w : Word) : List Byte :=
  [w.extractLsb' 24 8, w.extractLsb' 16 8, w.extractLsb' 8 8, w.extractLsb' 0 8]

/-- A page-table entry in memory order: `w0` at the lower address (20_memory.md R41). -/
def pteBytes (w0 w1 : Word) : List Byte := wordBytes w0 ++ wordBytes w1

/-- The two words of a serialised page-table entry; a list of another length is none. -/
def pteOfBytes : List Byte → Option (Word × Word)
  | [a, b, c, d, e, f, g, h] => some (a ++ b ++ c ++ d, e ++ f ++ g ++ h)
  | _ => none

/-- NUM_USER_SEGMENTS for a user address ceiling: a partial top segment is not eligible (43_segment_install.md R160; UNVERIFIED of the
hardware, log 17). -/
def userSegmentsBelow (ceiling : Nat) : Nat := min 16 (ceiling / 2 ^ 28)

end Sys2Proof.Machine
end

