-- ==== Sys2Proof/Safety.lean ====
section
/-! DEFINITION. What counts as a safe run, and the invariant of the block, in the terms the obligations use. -/

namespace Sys2Proof.Machine

/-! ## The terms of the obligations -/

/-- The next state `t`, its response port showing status OK and these results (30_encoding.md R56). -/
def answerOk (t : State) (results : Results) : Result := .next { t with response := some ⟨.ok, 0, some results⟩ }

/-- The next state `t`, its response port showing another status, its info, and no results (30_encoding.md R56). -/
def answerNot (t : State) (status : Status) (info : Nat) : Result := .next { t with response := some ⟨status, info, none⟩ }

/-- What a rule says of one command at one state: its command word is `word`, and it ANSWERS A NEXT STATE, which is HALTED with
nothing changed when the block is halted (60_exceptions.md R206), and `answer` otherwise. -/
def Does (i : Instr) (word : Word) (s : State) (answer : Result) : Prop :=
  (encode i).word = word ∧ exec i s = if isHalted s then answerNot s .halted 0 else answer

/-- The ports of PTEENC that carry these field values. -/
def portsOfFields (f : PteFields) : PtePorts where
  v := f.v.setWidth 32
  vsid := f.vsid.setWidth 32
  h := f.h.setWidth 32
  api := f.api.setWidth 32
  rpn := f.rpn.setWidth 32
  xpn := f.xpn.setWidth 32
  r := f.r.setWidth 32
  c := f.c.setWidth 32
  w := f.w.setWidth 32
  i := f.i.setWidth 32
  m := f.m.setWidth 32
  g := f.g.setWidth 32
  pp := f.pp.setWidth 32

/-! ## Responses and the invariant -/

/-- The info values that go with a status (60_exceptions.md R200). -/
def infoFits : Status → Nat → Bool
  | .ok, n => n == 0
  | .illegalCmd, n => n < 2 ^ 32
  | .badIndex, n => n < 16
  | .encRange, n => n ≤ 12
  | .encAlign, n => n == 0
  | .decReserved, n => n == 2 || n == 11
  | .decMalformed, n => n < 2 ^ 32
  | .rangeOrder, n => n == 0
  | .noSize, n => n == 0
  | .unsupported, n => n == 0
  | .faultUninit, n => n < 32
  | .faultHazard, n => n == 0
  | .halted, n => n == 0

/-- Whether these are the results that the command's row of 30_encoding.md R53 names. -/
def resultsFit : Instr → Results → Bool
  | .vsid _ _, .vsid _ => true
  | .vsidea _ _, .vsidSeg _ _ => true
  | .pteenc _, .pteWords _ _ => true
  | .ptedec _ _, .pteFields _ _ => true
  | .ppchk _ _, .rights _ => true
  | .batsize _ _, .batSize _ _ _ => true
  | .batfree, .batIndex _ _ => true
  | .batpenc _, .batBits _ => true
  | .batpdec _, .batPa _ => true
  | .batuenc _ _ _ _, .batUpper _ => true
  | .batlenc _ _ _, .batLower _ => true
  | .batwr _ _ _, .empty => true
  | .batrd _, .batPair _ _ => true
  | .srinst _, .installed _ _ => true
  | .srsync, .empty => true
  | .srwr _ _, .empty => true
  | .srrd _, .srValue _ => true
  | .uenter, .empty => true
  | _, _ => false

/-- A response as 30_encoding.md R56 has it: results exactly when the status is OK, and an info that goes with the status. -/
def responseOk (r : Response) : Bool := (r.status == .ok) == r.results.isSome && infoFits r.status r.info

/-- The statuses that only a block with a recorded fault shows (60_exceptions.md R203, R206). -/
def haltStatus : Status → Bool
  | .faultUninit => true
  | .faultHazard => true
  | .halted => true
  | _ => false

/-- Whether the response port shows one of those statuses. -/
def showsHalt (s : State) : Bool :=
  match s.response with
  | none => false
  | some r => haltStatus r.status

/-- The invariant of the block, which every step keeps from any state that has it. -/
structure Consistent (s : State) : Prop where
  /-- A BAT pair beyond N_BAT does not exist and holds nothing (10_state.md R26). -/
  absentBats : ∀ i : BitVec 4, s.params.nBat ≤ i.toNat → readBat s i = none
  /-- With SYNC_REQUIRED false, `sr_sync_pending` is always 0 (43_segment_install.md R168). -/
  noBarrierNeeded : s.params.syncRequired = false → s.syncPending = false
  /-- The response port shows a response of 60_exceptions.md R200. -/
  responseFits : ∀ r, s.response = some r → responseOk r = true
  /-- The block is halted exactly when the last response was a sticky fault or HALTED (60_exceptions.md R203, R206). -/
  haltShows : isHalted s = showsHalt s
  /-- HAZARD is recorded only with a pending barrier, and a halted block changes nothing (60_exceptions.md R205, R206). -/
  hazardPending : s.faults.hazard = true → s.syncPending = true
  /-- The first recorded fault halts the block, so no second one is recorded (60_exceptions.md R206). -/
  oneFault : (s.faults.uninit && s.faults.hazard) = false

/-- A safe state: no fault has been recorded (60_exceptions.md R206: a halted state is never a successful end). -/
def safeState (s : State) : Bool := !isHalted s

/-- Whether a presented sequence respects the variant barrier (70_reset_and_hazards.md R225): on a variant that needs it, an
SRSYNC comes between a segment-register write and the next UENTER. `pending` says whether one is owed at the start. -/
def respectsBarrier (syncRequired : Bool) : Bool → List HostEvent → Bool
  | _, [] => true
  | _, .reset :: rest => respectsBarrier syncRequired false rest
  | pending, .command c :: rest =>
    match decode c with
    | .ok .uenter => !pending && respectsBarrier syncRequired pending rest
    | .ok (.srinst _) => respectsBarrier syncRequired (pending || syncRequired) rest
    | .ok (.srwr _ _) => respectsBarrier syncRequired (pending || syncRequired) rest
    | .ok .srsync => respectsBarrier syncRequired false rest
    | _ => respectsBarrier syncRequired pending rest

/-- A command that reads no state and writes none: the VSID, PTE and BAT-encode families (00_scope.md R17). BATSIZE is one of
them: its contract is advisory and its result does not depend on state (42_bat.md R132, R134). -/
def isPure : Instr → Bool
  | .vsid _ _ | .vsidea _ _ | .pteenc _ | .ptedec _ _ | .ppchk _ _ | .batsize _ _ | .batpenc _ | .batpdec _
  | .batuenc _ _ _ _ | .batlenc _ _ _ => true
  | .batfree | .batwr _ _ _ | .batrd _ | .srinst _ | .srsync | .srwr _ _ | .srrd _ | .uenter => false

end Sys2Proof.Machine
end

