-- ==== Sys2Proof/Certificates/Slice0/Obligations.lean ====
section
/-! DEFINITION. The statements for the provers, from the numbered rules of the spec. `Does i word s answer` (Safety.lean) says
that the command word of `i` is `word` and that `exec i s` answers the next state `answer`, or HALTED on a halted block. -/

open Sys2Proof Sys2Proof.Machine

/-! ## VSID mapper -/

/-- 40_vsid.md R100, R101: VSID answers `(ctx * 897 * 16 + seg * 0x111) mod 2^24` and changes nothing but the response. -/
def Obligations.VsidAnswersSkewedSum : Prop :=
  ∀ (ctx : Word) (seg : BitVec 4) (s : State),
    Does (.vsid ctx seg) 0x01000000 s
      (answerOk s (.vsid (BitVec.ofNat 24 (ctx.toNat * 897 * 16 + seg.toNat * 0x111))))

/-- 40_vsid.md R102: VSIDEA answers the VSID of segment EA[31:28], and that segment. -/
def Obligations.VsideaUsesTopFourAddressBits : Prop :=
  ∀ (ctx ea : Word) (s : State),
    Does (.vsidea ctx ea) 0x02000000 s
      (answerOk s (.vsidSeg (BitVec.ofNat 24 (ctx.toNat * 0x3810 + ea.toNat / 2 ^ 28 * 0x111))
        (BitVec.ofNat 4 (ea.toNat / 2 ^ 28))))

/-- 40_vsid.md R103, which the spec marks as derived from R100: the low nibble of every VSID is its segment index. -/
def Obligations.VsidLowNibbleIsSegment : Prop :=
  ∀ (ctx : Word) (seg : BitVec 4) (s : State), isHalted s = false →
    ∃ v : BitVec 24, exec (.vsid ctx seg) s = answerOk s (.vsid v) ∧ v.extractLsb' 0 4 = seg

/-- 40_vsid.md R104, which the spec marks as derived from R100: two VSID commands answer the same exactly when the segments
are equal and the context ids agree modulo 2^20. -/
def Obligations.VsidCollisionsAreExactlyMod20 : Prop :=
  ∀ (c1 c2 : Word) (s1 s2 : BitVec 4) (s : State), isHalted s = false →
    (exec (.vsid c1 s1) s = exec (.vsid c2 s2) s ↔ s1 = s2 ∧ c1.toNat % 2 ^ 20 = c2.toNat % 2 ^ 20)

/-! ## Hash page-table entry codec -/

/-- 41_pte_codec.md R115: PTEENC reports the first field in layout order that is too wide, then a nonzero XPN without
EXT_PHYS, and otherwise packs the fields. -/
def Obligations.PteencChecksWidthsThenPacks : Prop :=
  ∀ (p : PtePorts) (s : State) (fields : List (Word × Nat)),
    fields = [(p.v, 1), (p.vsid, 24), (p.h, 1), (p.api, 6), (p.rpn, 20), (p.xpn, 3), (p.r, 1), (p.c, 1), (p.w, 1),
      (p.i, 1), (p.m, 1), (p.g, 1), (p.pp, 2)] →
    (∀ k x width, fields[k]? = some (x, width) → 2 ^ width ≤ x.toNat →
      (∀ j y u, j < k → fields[j]? = some (y, u) → y.toNat < 2 ^ u) →
      Does (.pteenc p) 0x10000000 s (answerNot s .encRange k)) ∧
    ((∀ f ∈ fields, f.1.toNat < 2 ^ f.2) → s.params.extPhys = false → p.xpn ≠ 0 →
      Does (.pteenc p) 0x10000000 s (answerNot s .encRange 5)) ∧
    ((∀ f ∈ fields, f.1.toNat < 2 ^ f.2) → (s.params.extPhys = true ∨ p.xpn = 0) →
      Does (.pteenc p) 0x10000000 s (answerOk s (.pteWords
        (p.v <<< 31 ||| p.vsid <<< 7 ||| p.h <<< 6 ||| p.api)
        (p.rpn <<< 12 ||| p.xpn <<< 9 ||| p.r <<< 8 ||| p.c <<< 7 ||| p.w <<< 6 ||| p.i <<< 5 ||| p.m <<< 4 |||
          p.g <<< 3 ||| p.pp))))

/-- 41_pte_codec.md R116: PTEDEC refuses the reserved bit, then a nonzero XPN without EXT_PHYS, and otherwise answers the
fields and the page number. -/
def Obligations.PtedecChecksReservedThenSplits : Prop :=
  ∀ (w0 w1 : Word) (s : State),
    (w1.getLsbD 2 = true → Does (.ptedec w0 w1) 0x11000000 s (answerNot s .decReserved 2)) ∧
    (w1.getLsbD 2 = false → s.params.extPhys = false → w1.toNat / 2 ^ 9 % 2 ^ 3 ≠ 0 →
      Does (.ptedec w0 w1) 0x11000000 s (answerNot s .decReserved 11)) ∧
    (w1.getLsbD 2 = false → (s.params.extPhys = true ∨ w1.toNat / 2 ^ 9 % 2 ^ 3 = 0) →
      ∃ f : PteFields,
        (f.v.toNat = w0.toNat / 2 ^ 31 ∧ f.vsid.toNat = w0.toNat / 2 ^ 7 % 2 ^ 24 ∧ f.h.toNat = w0.toNat / 2 ^ 6 % 2 ∧
          f.api.toNat = w0.toNat % 2 ^ 6) ∧
        (f.rpn.toNat = w1.toNat / 2 ^ 12 ∧ f.xpn.toNat = w1.toNat / 2 ^ 9 % 2 ^ 3 ∧ f.r.toNat = w1.toNat / 2 ^ 8 % 2 ∧
          f.c.toNat = w1.toNat / 2 ^ 7 % 2 ∧ f.w.toNat = w1.toNat / 2 ^ 6 % 2 ∧ f.i.toNat = w1.toNat / 2 ^ 5 % 2 ∧
          f.m.toNat = w1.toNat / 2 ^ 4 % 2 ∧ f.g.toNat = w1.toNat / 2 ^ 3 % 2 ∧ f.pp.toNat = w1.toNat % 2 ^ 2) ∧
        Does (.ptedec w0 w1) 0x11000000 s (answerOk s (.pteFields f
          (BitVec.ofNat 23 (w1.toNat / 2 ^ 9 % 2 ^ 3 * 2 ^ 20 + w1.toNat / 2 ^ 12)))))

/-- 41_pte_codec.md R117, which the spec marks as derived from R115 and R116: the codec round-trips in both directions. -/
def Obligations.PteCodecRoundTrips : Prop :=
  ∀ s : State, isHalted s = false →
    (∀ (p : PtePorts) (w0 w1 : Word), exec (.pteenc p) s = answerOk s (.pteWords w0 w1) →
      ∃ (f : PteFields) (ppn : BitVec 23), exec (.ptedec w0 w1) s = answerOk s (.pteFields f ppn) ∧ portsOfFields f = p) ∧
    (∀ (w0 w1 : Word) (f : PteFields) (ppn : BitVec 23), exec (.ptedec w0 w1) s = answerOk s (.pteFields f ppn) →
      exec (.pteenc (portsOfFields f)) s = answerOk s (.pteWords w0 w1))

/-- 41_pte_codec.md R119: PPCHK looks the rights up in the protection code table, by key and then by PP. -/
def Obligations.PpchkFollowsProtectionTable : Prop :=
  ∀ (pp : BitVec 2) (key : BitVec 1) (s : State),
    Does (.ppchk pp key) 0x12000000 s (answerOk s (.rights
      (([[2, 2, 2, 1], [0, 1, 2, 1]].getD key.toNat []).getD pp.toNat 3)))

/-! ## BAT allocator -/

/-- 42_bat.md R132, and R133, which the spec marks as derived from it: BATSIZE checks the order and the length, and otherwise
answers the largest supported size that is not longer than the range, its code, and whether `base` is a multiple of it. -/
def Obligations.BatsizeTakesLargestSize : Prop :=
  ∀ (base top : PhysAddr) (s : State),
    (top.toNat < base.toNat → Does (.batsize base top) 0x20000000 s (answerNot s .rangeOrder 0)) ∧
    (base.toNat ≤ top.toNat → top.toNat - base.toNat < 2 ^ 17 →
      Does (.batsize base top) 0x20000000 s (answerNot s .noSize 0)) ∧
    (base.toNat ≤ top.toNat → 2 ^ 17 ≤ top.toNat - base.toNat →
      ∃ k, 17 ≤ k ∧ k ≤ 28 ∧ 2 ^ k ≤ top.toNat - base.toNat ∧
        (∀ j, 17 ≤ j → j ≤ 28 → 2 ^ j ≤ top.toNat - base.toNat → j ≤ k) ∧
        Does (.batsize base top) 0x20000000 s (answerOk s (.batSize (BitVec.ofNat 29 (2 ^ k))
          (BitVec.ofNat 11 (2 ^ (k - 17) - 1)) (if base.toNat % 2 ^ k = 0 then 1 else 0))))

/-- 42_bat.md R135, R136, R137: BATFREE answers the first pair whose upper word has bits 1:0 clear, faults at an unwritten
pair that it meets before one, and answers `found = 0`, which is OK, when there is none. -/
def Obligations.BatfreeStopsAtFirstFreePair : Prop :=
  ∀ s : State,
    (∀ (i : BitVec 4) (p : BatPair), i.toNat < s.params.nBat → readBat s i = some p → p.upper.toNat % 4 = 0 →
      (∀ j : BitVec 4, j.toNat < i.toNat → ∃ q, readBat s j = some q ∧ q.upper.toNat % 4 ≠ 0) →
      Does .batfree 0x21000000 s (answerOk s (.batIndex 1 (some i)))) ∧
    (∀ i : BitVec 4, i.toNat < s.params.nBat → readBat s i = none →
      (∀ j : BitVec 4, j.toNat < i.toNat → ∃ q, readBat s j = some q ∧ q.upper.toNat % 4 ≠ 0) →
      Does .batfree 0x21000000 s (answerNot { s with faults := ⟨true, s.faults.hazard⟩ } .faultUninit i.toNat)) ∧
    ((∀ j : BitVec 4, j.toNat < s.params.nBat → ∃ q, readBat s j = some q ∧ q.upper.toNat % 4 ≠ 0) →
      Does .batfree 0x21000000 s (answerOk s (.batIndex 0 none)))

/-- 42_bat.md R135: the lower words play no part in BATFREE. -/
def Obligations.BatfreeIgnoresLowerWords : Prop :=
  ∀ s t : State, s.params = t.params → s.faults = t.faults →
    (∀ i, (readBat s i).map (·.upper) = (readBat t i).map (·.upper)) →
    ∃ (f : FaultSet) (r : Response),
      exec .batfree s = .next { s with faults := f, response := some r } ∧
      exec .batfree t = .next { t with faults := f, response := some r }

/-- 42_bat.md R140: BATPENC checks the range, then the alignment, and otherwise answers the address (EXT_PHYS false) or
PA[33:17] at bits 17:1 with PA[32] at bit 0 (EXT_PHYS true). -/
def Obligations.BatpencEncodesOrRefuses : Prop :=
  ∀ (pa : PhysAddr) (s : State) (limit : Nat), limit = (if s.params.extPhys then 2 ^ 34 else 2 ^ 32) →
    (limit ≤ pa.toNat → Does (.batpenc pa) 0x22000000 s (answerNot s .encRange 0)) ∧
    (pa.toNat < limit → pa.toNat % 2 ^ 17 ≠ 0 → Does (.batpenc pa) 0x22000000 s (answerNot s .encAlign 0)) ∧
    (pa.toNat < limit → pa.toNat % 2 ^ 17 = 0 →
      Does (.batpenc pa) 0x22000000 s (answerOk s (.batBits (BitVec.ofNat 32
        (if s.params.extPhys then pa.toNat / 2 ^ 17 * 2 + pa.toNat / 2 ^ 32 % 2 else pa.toNat)))))

/-- 42_bat.md R141: BATPDEC drops bits 16:0 (EXT_PHYS false), or requires bits 31:18 to be 0 and bit 0 to equal bit 16 and
then answers bits 17:1 as PA[33:17] (EXT_PHYS true). -/
def Obligations.BatpdecDecodesOrRefuses : Prop :=
  ∀ (bits : Word) (s : State),
    (s.params.extPhys = false →
      Does (.batpdec bits) 0x23000000 s (answerOk s (.batPa (BitVec.ofNat 64 (bits.toNat / 2 ^ 17 * 2 ^ 17))))) ∧
    (s.params.extPhys = true → (bits.toNat / 2 ^ 18 ≠ 0 ∨ bits.toNat % 2 ≠ bits.toNat / 2 ^ 16 % 2) →
      Does (.batpdec bits) 0x23000000 s (answerNot s .decMalformed bits.toNat)) ∧
    (s.params.extPhys = true → bits.toNat / 2 ^ 18 = 0 → bits.toNat % 2 = bits.toNat / 2 ^ 16 % 2 →
      Does (.batpdec bits) 0x23000000 s (answerOk s (.batPa (BitVec.ofNat 64 (bits.toNat / 2 * 2 ^ 17)))))

/-- 42_bat.md R144, which the spec marks as derived from R138 to R141: encoding and decoding a representable address gives it
back, and decoding and encoding gives back the bits (EXT_PHYS true) or the bits without their low 17 (EXT_PHYS false). -/
def Obligations.BatAddressRoundTrips : Prop :=
  ∀ s : State, isHalted s = false →
    (∀ pa : PhysAddr, pa.toNat < (if s.params.extPhys then 2 ^ 34 else 2 ^ 32) → pa.toNat % 2 ^ 17 = 0 →
      ∃ b : Word, exec (.batpenc pa) s = answerOk s (.batBits b) ∧ exec (.batpdec b) s = answerOk s (.batPa pa)) ∧
    (s.params.extPhys = true → ∀ (b : Word) (pa : PhysAddr), exec (.batpdec b) s = answerOk s (.batPa pa) →
      exec (.batpenc pa) s = answerOk s (.batBits b)) ∧
    (s.params.extPhys = false → ∀ b : Word, ∃ pa : PhysAddr, exec (.batpdec b) s = answerOk s (.batPa pa) ∧
      exec (.batpenc pa) s = answerOk s (.batBits (b &&& 0xFFFE0000)))

/-- 42_bat.md R142: BATUENC checks the code, then the alignment of `ea` to the code's size, and otherwise composes the word.
-/
def Obligations.BatuencChecksThenComposes : Prop :=
  ∀ (ea code : Word) (vs vp : BitVec 1) (s : State),
    ((∀ j, j ≤ 11 → code.toNat ≠ 2 ^ j - 1) →
      Does (.batuenc ea code vs vp) 0x24000000 s (answerNot s .encRange 1)) ∧
    (∀ j, j ≤ 11 → code.toNat = 2 ^ j - 1 → ea.toNat % ((code.toNat + 1) * 2 ^ 17) ≠ 0 →
      Does (.batuenc ea code vs vp) 0x24000000 s (answerNot s .encAlign 0)) ∧
    (∀ j, j ≤ 11 → code.toNat = 2 ^ j - 1 → ea.toNat % ((code.toNat + 1) * 2 ^ 17) = 0 →
      Does (.batuenc ea code vs vp) 0x24000000 s
        (answerOk s (.batUpper (ea ||| code <<< 2 ||| vs.setWidth 32 <<< 1 ||| vp.setWidth 32))))

/-- The layout of 10_state.md R27 (general knowledge of the spec, log 15): in every word BATUENC composes, bits 31:17 are
EA[31:17], bits 16:13 are 0, bits 12:2 are the block size code, and bits 1 and 0 are Vs and Vp. -/
def Obligations.UpperWordHoldsItsFields : Prop :=
  ∀ (ea code : Word) (vs vp : BitVec 1) (s : State) (u : Word), isHalted s = false →
    exec (.batuenc ea code vs vp) s = answerOk s (.batUpper u) →
    (upperBepi u).toNat = ea.toNat / 2 ^ 17 ∧ upperRsv u = 0 ∧ (upperBl u).toNat = code.toNat ∧
      upperVs u = vs ∧ upperVp u = vp

/-- 42_bat.md R143: BATLENC refuses the extended mode, then checks `pa` as BATPENC does, then WIMG, then PP, and otherwise
composes the word. -/
def Obligations.BatlencChecksThenComposes : Prop :=
  ∀ (pa : PhysAddr) (wimg pp : Word) (s : State),
    (s.params.extPhys = true → Does (.batlenc pa wimg pp) 0x25000000 s (answerNot s .unsupported 0)) ∧
    (s.params.extPhys = false → 2 ^ 32 ≤ pa.toNat →
      Does (.batlenc pa wimg pp) 0x25000000 s (answerNot s .encRange 0)) ∧
    (s.params.extPhys = false → pa.toNat < 2 ^ 32 → pa.toNat % 2 ^ 17 ≠ 0 →
      Does (.batlenc pa wimg pp) 0x25000000 s (answerNot s .encAlign 0)) ∧
    (s.params.extPhys = false → pa.toNat < 2 ^ 32 → pa.toNat % 2 ^ 17 = 0 → 16 ≤ wimg.toNat →
      Does (.batlenc pa wimg pp) 0x25000000 s (answerNot s .encRange 1)) ∧
    (s.params.extPhys = false → pa.toNat < 2 ^ 32 → pa.toNat % 2 ^ 17 = 0 → wimg.toNat < 16 → 4 ≤ pp.toNat →
      Does (.batlenc pa wimg pp) 0x25000000 s (answerNot s .encRange 2)) ∧
    (s.params.extPhys = false → pa.toNat < 2 ^ 32 → pa.toNat % 2 ^ 17 = 0 → wimg.toNat < 16 → pp.toNat < 4 →
      Does (.batlenc pa wimg pp) 0x25000000 s
        (answerOk s (.batLower (BitVec.ofNat 32 pa.toNat ||| wimg <<< 3 ||| pp))))

/-- The layout of 10_state.md R28 (general knowledge of the spec, log 15): in every word BATLENC composes, bits 31:17 are
PA[31:17], bits 16:7 and 2 are 0, bits 6:3 are WIMG and bits 1:0 are PP; and BATPDEC of the word gives the address back. -/
def Obligations.LowerWordHoldsItsFields : Prop :=
  ∀ (pa : PhysAddr) (wimg pp : Word) (s : State) (l : Word), isHalted s = false →
    exec (.batlenc pa wimg pp) s = answerOk s (.batLower l) →
    (lowerBrpn l).toNat = pa.toNat / 2 ^ 17 ∧ lowerRsvHigh l = 0 ∧ (lowerWimg l).toNat = wimg.toNat ∧
      lowerRsvLow l = 0 ∧ (lowerPp l).toNat = pp.toNat ∧ exec (.batpdec l) s = answerOk s (.batPa pa)

/-- The code BATSIZE answers is one BATUENC accepts, for every effective address that is a multiple of the size (42_bat.md
R132, R142). -/
def Obligations.BatuencAcceptsBatsizeCode : Prop :=
  ∀ (base top : PhysAddr) (size : BitVec 29) (code : BitVec 11) (aligned : BitVec 1) (ea : Word) (vs vp : BitVec 1)
    (s : State), isHalted s = false →
    exec (.batsize base top) s = answerOk s (.batSize size code aligned) → ea.toNat % size.toNat = 0 →
    ∃ u : Word, exec (.batuenc ea (code.setWidth 32) vs vp) s = answerOk s (.batUpper u)

/-- 42_bat.md R145: BATWR refuses an index that is not below N_BAT, and otherwise writes both words of that pair as given and
leaves everything else as it was. -/
def Obligations.BatwrWritesOnePair : Prop :=
  ∀ (i : BitVec 4) (upper lower : Word) (s : State),
    (s.params.nBat ≤ i.toNat →
      Does (.batwr i upper lower) (0x28000000 ||| i.setWidth 32) s (answerNot s .badIndex i.toNat)) ∧
    (i.toNat < s.params.nBat →
      ∃ t : State, Does (.batwr i upper lower) (0x28000000 ||| i.setWidth 32) s (answerOk t .empty) ∧
        readBat t i = some ⟨upper, lower⟩ ∧ (∀ j, j ≠ i → readBat t j = readBat s j) ∧ t.sr = s.sr ∧
        t.syncPending = s.syncPending ∧ t.faults = s.faults ∧ t.params = s.params ∧ t.inbox = s.inbox)

/-- 42_bat.md R146: BATRD refuses an index that is not below N_BAT, faults on an unwritten pair, and otherwise answers both
words and changes nothing. -/
def Obligations.BatrdAnswersThePair : Prop :=
  ∀ (i : BitVec 4) (s : State),
    (s.params.nBat ≤ i.toNat → Does (.batrd i) (0x29000000 ||| i.setWidth 32) s (answerNot s .badIndex i.toNat)) ∧
    (i.toNat < s.params.nBat → readBat s i = none →
      Does (.batrd i) (0x29000000 ||| i.setWidth 32) s
        (answerNot { s with faults := ⟨true, s.faults.hazard⟩ } .faultUninit i.toNat)) ∧
    (∀ p, i.toNat < s.params.nBat → readBat s i = some p →
      Does (.batrd i) (0x29000000 ||| i.setWidth 32) s (answerOk s (.batPair p.upper p.lower)))

/-- 70_reset_and_hazards.md R227, 42_bat.md R146: no latency between a write and a later read of the same register. -/
def Obligations.ReadAfterWriteAnswersTheWords : Prop :=
  ∀ s : State, isHalted s = false →
    (∀ (i : BitVec 4) (upper lower : Word), i.toNat < s.params.nBat →
      ∃ t : State, exec (.batwr i upper lower) s = .next t ∧ exec (.batrd i) t = answerOk t (.batPair upper lower)) ∧
    (∀ (n : BitVec 4) (value : Word),
      ∃ t : State, exec (.srwr n value) s = .next t ∧ exec (.srrd n) t = answerOk t (.srValue value))

/-! ## Segment register installer -/

/-- 43_segment_install.md R162, R163: SRINST gives each slot below NUM_USER_SEGMENTS the masked seed plus 0x111 times its
number, leaves the other slots as they were, sets the barrier flag when SYNC_REQUIRED is true, answers the count and the
ascending log, and changes nothing else. -/
def Obligations.SrinstInstallsEligibleSlots : Prop :=
  ∀ (seed : Word) (s : State), ∃ t : State,
    Does (.srinst seed) 0x30000000 s (answerOk t (.installed (BitVec.ofNat 5 s.params.numUserSegments)
      ((List.range s.params.numUserSegments).map fun n =>
        (BitVec.ofNat 4 n, BitVec.ofNat 32 ((seed &&& 0xF0FFFFFF).toNat + n * 0x111))))) ∧
    (∀ n : BitVec 4, n.toNat < s.params.numUserSegments →
      readSr t n = some (BitVec.ofNat 32 ((seed &&& 0xF0FFFFFF).toNat + n.toNat * 0x111))) ∧
    (∀ n : BitVec 4, s.params.numUserSegments ≤ n.toNat → readSr t n = readSr s n) ∧
    (s.params.syncRequired = true → t.syncPending = true) ∧
    (s.params.syncRequired = false → t.syncPending = s.syncPending) ∧
    t.bat = s.bat ∧ t.faults = s.faults ∧ t.params = s.params ∧ t.inbox = s.inbox

/-- 43_segment_install.md R161: a seed the caller has already masked installs identically. -/
def Obligations.MaskedSeedInstallsTheSame : Prop :=
  ∀ (seed : Word) (s : State), exec (.srinst (seed &&& 0xF0FFFFFF)) s = exec (.srinst seed) s

/-- 43_segment_install.md R164, which the spec marks as derived from R100, R161 and R162: seeded with VSID(ctx, 0), every
eligible slot n gets VSID(ctx, n) in bits 23:0; bit 24 is set exactly when the sum reaches 2^24, and bits 27:25 are 0. -/
def Obligations.InstalledSlotsHoldTheirVsids : Prop :=
  ∀ (ctx seed : Word) (s : State), isHalted s = false →
    (srVsid seed).toNat = ctx.toNat * 0x3810 % 2 ^ 24 →
    ∃ t : State, exec (.srinst seed) s = .next t ∧
      ∀ n : BitVec 4, n.toNat < s.params.numUserSegments →
        ∃ w : Word, readSr t n = some w ∧
          exec (.vsid ctx n) s = answerOk s (.vsid (srVsid w)) ∧
          (w.getLsbD 24 = true ↔ 2 ^ 24 ≤ ctx.toNat * 0x3810 % 2 ^ 24 + n.toNat * 0x111) ∧
          w.toNat / 2 ^ 25 % 2 ^ 3 = 0

/-- 43_segment_install.md R170, which the spec marks as derived from R161 and R162: SRINST leaves bits 31:28 of every
installed value equal to those of the seed. -/
def Obligations.InstallKeepsFlagBits : Prop :=
  ∀ (seed : Word) (s : State), isHalted s = false →
    ∃ t : State, exec (.srinst seed) s = .next t ∧
      ∀ n : BitVec 4, n.toNat < s.params.numUserSegments → ∃ w : Word, readSr t n = some w ∧ srFlags w = srFlags seed

/-- 43_segment_install.md R171, which the spec marks as derived from R103 and R162: consecutive eligible slots differ by
exactly 0x111, and the low nibble of slot n is `(seed[3:0] + n) mod 16`. -/
def Obligations.InstalledSlotsAreSkewed : Prop :=
  ∀ (seed : Word) (s : State), isHalted s = false →
    ∃ t : State, exec (.srinst seed) s = .next t ∧
      (∀ n m : BitVec 4, m.toNat = n.toNat + 1 → m.toNat < s.params.numUserSegments →
        ∃ v w : Word, readSr t n = some v ∧ readSr t m = some w ∧ w.toNat = v.toNat + 0x111) ∧
      (∀ n : BitVec 4, n.toNat < s.params.numUserSegments →
        ∃ w : Word, readSr t n = some w ∧ w.toNat % 16 = (seed.toNat + n.toNat) % 16)

/-- 43_segment_install.md R166: SRWR writes all 32 bits of one register, sets the barrier flag when SYNC_REQUIRED is true, and
leaves everything else as it was. -/
def Obligations.SrwrWritesOneRegister : Prop :=
  ∀ (n : BitVec 4) (value : Word) (s : State), ∃ t : State,
    Does (.srwr n value) (0x32000000 ||| n.setWidth 32) s (answerOk t .empty) ∧
    readSr t n = some value ∧ (∀ m, m ≠ n → readSr t m = readSr s m) ∧
    (s.params.syncRequired = true → t.syncPending = true) ∧
    (s.params.syncRequired = false → t.syncPending = s.syncPending) ∧
    t.bat = s.bat ∧ t.faults = s.faults ∧ t.params = s.params ∧ t.inbox = s.inbox

/-- 43_segment_install.md R167: SRRD faults on an unwritten register with info 16 + n, and otherwise answers its value and
changes nothing. -/
def Obligations.SrrdAnswersTheRegister : Prop :=
  ∀ (n : BitVec 4) (s : State),
    (readSr s n = none →
      Does (.srrd n) (0x33000000 ||| n.setWidth 32) s
        (answerNot { s with faults := ⟨true, s.faults.hazard⟩ } .faultUninit (16 + n.toNat))) ∧
    (∀ v, readSr s n = some v → Does (.srrd n) (0x33000000 ||| n.setWidth 32) s (answerOk s (.srValue v)))

/-- 43_segment_install.md R168: SRSYNC clears the barrier flag and changes nothing else, issuing it twice is the same as
issuing it once, and with SYNC_REQUIRED false it has no effect, in any state that has the invariant. -/
def Obligations.SrsyncClearsBarrierFlag : Prop :=
  ∀ s : State, Does .srsync 0x31000000 s (answerOk { s with syncPending := false } .empty) ∧
    (∃ t : State, exec .srsync s = .next t ∧ exec .srsync t = .next t) ∧
    (Consistent s → s.params.syncRequired = false →
      s.syncPending = false ∧ Does .srsync 0x31000000 s (answerOk s .empty))

/-- 43_segment_install.md R169: UENTER faults HAZARD when the barrier flag is set, and otherwise is OK; it changes nothing but
the fault set. With SYNC_REQUIRED false it never faults, in any state that has the invariant. -/
def Obligations.UenterChecksBarrierFlag : Prop :=
  ∀ s : State,
    (s.syncPending = true →
      Does .uenter 0x34000000 s (answerNot { s with faults := ⟨s.faults.uninit, true⟩ } .faultHazard 0)) ∧
    (s.syncPending = false → Does .uenter 0x34000000 s (answerOk s .empty)) ∧
    (Consistent s → s.params.syncRequired = false → Does .uenter 0x34000000 s (answerOk s .empty))

/-! ## Responses, statuses and faults -/

/-- 30_encoding.md R56: every command answers one next state whose response has results exactly when it is OK, the results
being those of its own row of R53, and an info that goes with its status; and a command whose status is not OK changes no state
but the fault set. -/
def Obligations.EveryCommandAnswersOneResponse : Prop :=
  ∀ (i : Instr) (s : State), ∃ (t : State) (r : Response), exec i s = .next t ∧ t.response = some r ∧
    (r.status = .ok ↔ r.results.isSome = true) ∧ (∀ x, r.results = some x → resultsFit i x = true) ∧
    infoFits r.status r.info = true ∧ (r.status ≠ .ok → t = { s with faults := t.faults, response := some r })

/-- 60_exceptions.md R203: the two sticky statuses add their reason and change nothing else, and every other status that is
not OK changes no state at all. -/
def Obligations.OnlyStickyStatusesChangeFaults : Prop :=
  ∀ (i : Instr) (s : State), ∃ (t : State) (r : Response), exec i s = .next t ∧ t.response = some r ∧
    (r.status = .faultUninit → t = { s with faults := ⟨true, s.faults.hazard⟩, response := some ⟨.faultUninit, r.info, none⟩ }) ∧
    (r.status = .faultHazard → t = { s with faults := ⟨s.faults.uninit, true⟩, response := some ⟨.faultHazard, r.info, none⟩ }) ∧
    (r.status ≠ .ok → r.status ≠ .faultUninit → r.status ≠ .faultHazard → t = { s with response := some r }) ∧
    (r.status = .ok → t.faults = s.faults)

/-- 60_exceptions.md R200, column 'raised by': which commands return which status, and the condition, where that column
names one. -/
def Obligations.StatusesComeFromTheirCommands : Prop :=
  ∀ (i : Instr) (s t : State) (r : Response), exec i s = .next t → t.response = some r →
    match r.status with
    | .ok => isHalted s = false
    | .illegalCmd => False
    | .badIndex => mnemonicOf i ∈ ["BATWR", "BATRD"] ∧ s.params.nBat ≤ (indexOf i).toNat
    | .encRange => mnemonicOf i ∈ ["PTEENC", "BATPENC", "BATUENC", "BATLENC"]
    | .encAlign => mnemonicOf i ∈ ["BATPENC", "BATUENC", "BATLENC"]
    | .decReserved => mnemonicOf i = "PTEDEC"
    | .decMalformed => mnemonicOf i = "BATPDEC" ∧ s.params.extPhys = true
    | .rangeOrder => ∃ base top, i = .batsize base top ∧ top.toNat < base.toNat
    | .noSize => ∃ base top, i = .batsize base top ∧ base.toNat ≤ top.toNat ∧ top.toNat - base.toNat < 2 ^ 17
    | .unsupported => mnemonicOf i = "BATLENC" ∧ s.params.extPhys = true
    | .faultUninit =>
      (∃ n, i = .srrd n ∧ readSr s n = none ∧ r.info = 16 + n.toNat) ∨
      (∃ k, (i = .batrd k ∨ i = .batfree) ∧ k.toNat < s.params.nBat ∧ readBat s k = none ∧ r.info = k.toNat)
    | .faultHazard => i = .uenter ∧ s.syncPending = true
    | .halted => isHalted s = true

/-- 60_exceptions.md R206: on a halted block every command, legal or not, answers HALTED and changes nothing, no command takes
a reason out of the fault set, and a reset empties it. -/
def Obligations.HaltedBlockAnswersHaltedUntilReset : Prop :=
  (∀ (i : Instr) (s : State), isHalted s = true → exec i s = answerNot s .halted 0) ∧
  (∀ (c : Command) (s : State), isHalted s = true → (c.wordOk = false ∨ c.WellFormed = true) →
    takeCommand c s = answerNot s .halted 0) ∧
  (∀ (c : Command) (s t : State), takeCommand c s = .next t →
    (s.faults.uninit = true → t.faults.uninit = true) ∧ (s.faults.hazard = true → t.faults.hazard = true)) ∧
  (∀ s : State, isHalted (resetBlock s) = false)

/-- 00_scope.md R17: a command of the VSID, PTE and BAT-encode families reads no state and writes none: at two states with the
same parameters, both halted or both not, it answers the same response and leaves everything else as it was. -/
def Obligations.PureCommandsTouchNoState : Prop :=
  ∀ i : Instr, isPure i = true → ∀ s t : State, s.params = t.params → isHalted s = isHalted t →
    ∃ r : Response, exec i s = .next { s with response := some r } ∧ exec i t = .next { t with response := some r }

/-- 10_state.md R24: only SRINST, in the slots below NUM_USER_SEGMENTS, and SRWR, in its own register, change a segment
register; and no command but SRRD reads one: what the other commands answer, and all else they leave, is the same whatever the
registers hold. -/
def Obligations.SegmentRegistersHaveTwoWritersAndOneReader : Prop :=
  (∀ (i : Instr) (s t : State) (n : BitVec 4), exec i s = .next t → readSr t n ≠ readSr s n →
    (∃ seed, i = .srinst seed ∧ n.toNat < s.params.numUserSegments) ∨ ∃ value, i = .srwr n value) ∧
  (∀ (i : Instr) (s : State) (sr : Vector (Option Word) 16), (∀ n, i ≠ .srrd n) →
    ∃ t u : State, exec i s = .next t ∧ exec i { s with sr := sr } = .next u ∧ u = { t with sr := u.sr })

/-- 10_state.md R29: only BATWR changes a BAT pair, its own, which then holds both words as given; and no command but BATFREE
and BATRD reads one: what the other commands answer, and all else they leave, is the same whatever the pairs hold. -/
def Obligations.BatPairsHaveOneWriterAndTwoReaders : Prop :=
  (∀ (i : Instr) (s t : State) (k : BitVec 4), exec i s = .next t → readBat t k ≠ readBat s k →
    ∃ upper lower, i = .batwr k upper lower ∧ readBat t k = some ⟨upper, lower⟩) ∧
  (∀ (i : Instr) (s : State) (bat : Vector (Option BatPair) 16), i ≠ .batfree → (∀ k, i ≠ .batrd k) →
    ∃ t u : State, exec i s = .next t ∧ exec i { s with bat := bat } = .next u ∧ u = { t with bat := u.bat })

/-- 10_state.md R30: what every command does to `sr_sync_pending`, that no command but UENTER reads it, and that reset leaves
it 0. -/
def Obligations.BarrierFlagChangesAsStated : Prop :=
  (∀ (i : Instr) (s t : State), exec i s = .next t →
    t.syncPending = if isHalted s then s.syncPending else
      match i with
      | .srinst _ => s.params.syncRequired || s.syncPending
      | .srwr _ _ => s.params.syncRequired || s.syncPending
      | .srsync => false
      | _ => s.syncPending) ∧
  (∀ (i : Instr) (s : State) (b : Bool), i ≠ .uenter →
    ∃ t u : State, exec i s = .next t ∧ exec i { s with syncPending := b } = .next u ∧
      u = { t with syncPending := u.syncPending }) ∧
  (∀ s : State, (resetBlock s).syncPending = false)

/-- 10_state.md R21 for the model's response port (log 7): no result persists between commands: what the response port shows
has no effect on any command. -/
def Obligations.NoCommandReadsTheResponsePort : Prop :=
  ∀ (i : Instr) (s : State) (r : Option Response), exec i { s with response := r } = exec i s

/-- 20_memory.md R47 in the form of the model's inbox (log 5): a command sees no effect of any later one: what the host
presents after it has no effect on it, and it leaves that as it is. -/
def Obligations.NoCommandSeesLaterCommands : Prop :=
  ∀ (i : Instr) (s : State), ∃ t : State, exec i s = .next t ∧
    ∀ later : List HostEvent, exec i { s with inbox := later } = .next { t with inbox := later }

/-! ## Reset, steps and the invariant -/

/-- 70_reset_and_hazards.md R220: after reset every SR and BAT register is unwritten, `sr_sync_pending` is 0 and `faults` is
empty, whatever the block held before and in the state a machine starts from, and the parameters are those fixed before. -/
def Obligations.ResetLeavesTheStatedValues : Prop :=
  ∀ (p : Params) (s t : State), t = State.resetWith p ∨ (t = resetBlock s ∧ p = s.params) →
    (∀ n, readSr t n = none) ∧ (∀ i, readBat t i = none) ∧ t.syncPending = false ∧ t.faults = ⟨false, false⟩ ∧
      t.params = p

/-- The state after reset has the invariant, for every choice of the parameters. -/
def Obligations.ResetStateIsConsistent : Prop :=
  (∀ p : Params, Consistent (State.resetWith p)) ∧ Consistent State.reset

/-- Every step keeps the invariant `Consistent` (Safety.lean), from every state that has it. -/
def Obligations.StepKeepsConsistent : Prop :=
  ∀ s t : State, Consistent s → step s = .next t → Consistent t

/-- 20_memory.md R47 in the form of the model's inbox (logs 5 and 6), and 00_scope.md R9 with the parameters carried in the
state (log 3): a step takes exactly the oldest event presented, or waits when there is none, and changes no parameter. -/
def Obligations.StepTakesTheOldestEvent : Prop :=
  ∀ s t : State, step s = .next t →
    t.params = s.params ∧ ((s.inbox = [] ∧ t = s) ∨ ∃ e, s.inbox = e :: t.inbox)

/-- The model's inbox (logs 5, 6 and 8): a step takes the oldest event. A command that decodes to an instruction is that
instruction, executed with the event taken; any command is taken by `takeCommand`, a reset is `resetBlock`, and with no event
the block waits. -/
def Obligations.StepExecutesTheDecodedCommand : Prop :=
  (∀ (s : State) (c : Command) (rest : List HostEvent) (i : Instr), s.inbox = .command c :: rest → decode c = .ok i →
    step s = exec i { s with inbox := rest }) ∧
  (∀ (s : State) (c : Command) (rest : List HostEvent), s.inbox = .command c :: rest →
    step s = takeCommand c { s with inbox := rest }) ∧
  (∀ (s : State) (rest : List HostEvent), s.inbox = .reset :: rest →
    step s = .next (resetBlock { s with inbox := rest })) ∧
  (∀ s : State, s.inbox = [] → step s = .next s)

/-- 70_reset_and_hazards.md R226, which the spec marks as derived from R30, R162, R166 and R168: a sequence that respects the
variant barrier never raises FAULT_HAZARD, however long it runs and whatever else it holds. -/
def Obligations.BarrierRespectingRunNeverFaultsHazard : Prop :=
  ∀ (k : Nat) (s t : State), s.faults.hazard = false →
    respectsBarrier s.params.syncRequired s.syncPending s.inbox = true →
    Host.Core.run Sys2Proof.core k s = .next t → t.faults.hazard = false

/-! ## Encoding -/

/-- 30_encoding.md R53: words of the opcode map, written out bit by bit from R50, select their commands. -/
def Obligations.WordsOfTheOpcodeMapDecode : Prop :=
  decode ⟨0b00000001_00000000000000000000_0000#32, [5, 3]⟩ = .ok (.vsid 5 3) ∧
  decode ⟨0b00010001_00000000000000000000_0000#32, [7, 8]⟩ = .ok (.ptedec 7 8) ∧
  decode ⟨0b00101000_00000000000000000000_1010#32, [1, 2]⟩ = .ok (.batwr 10 1 2) ∧
  decode ⟨0b00110010_00000000000000000000_1111#32, [9]⟩ = .ok (.srwr 15 9) ∧
  decode ⟨0b00110100_00000000000000000000_0000#32, []⟩ = .ok .uenter

/-- 30_encoding.md R54, whose mask and match form the spec marks as derived from R50 and R53: the decoder accepts a word
exactly when it selects a row of the opcode table by mask and match, it then gives that row's command, and no two rows match
one word. -/
def Obligations.DecoderFollowsTheOpcodeTable : Prop :=
  (∀ w : Word, (∃ shape, decodeWord w = .ok shape) ↔ ∃ row ∈ opcodeTable, w &&& row.mask = row.pattern) ∧
  (∀ (w : Word) (ports : List Nat) (i : Instr) (row : Row), decode ⟨w, ports⟩ = .ok i → row ∈ opcodeTable →
    w &&& row.mask = row.pattern → mnemonicOf i = row.mnemonic) ∧
  (∀ (w : Word) (a b : Row), a ∈ opcodeTable → b ∈ opcodeTable → w &&& a.mask = a.pattern → w &&& b.mask = b.pattern → a = b)

/-- 30_encoding.md R55: a word with a reserved opcode, nonzero RSV or a nonzero unused IDX answers ILLEGAL_CMD with the word
as info, and changes no state; on a halted block it answers HALTED (60_exceptions.md R202). -/
def Obligations.IllegalWordAnswersIllegalCmd : Prop :=
  ∀ (c : Command) (s : State) (opc : Nat), opc = c.word.toNat / 2 ^ 24 →
    ((opc = 0x00 ∨ (0x03 ≤ opc ∧ opc ≤ 0x0F) ∨ (0x13 ≤ opc ∧ opc ≤ 0x1F) ∨ (0x26 ≤ opc ∧ opc ≤ 0x27) ∨
        (0x2A ≤ opc ∧ opc ≤ 0x2F) ∨ 0x35 ≤ opc) ∨
      c.word.toNat / 2 ^ 4 % 2 ^ 20 ≠ 0 ∨
      (opc ∉ [0x28, 0x29, 0x32, 0x33] ∧ c.word.toNat % 2 ^ 4 ≠ 0)) →
    takeCommand c s = if isHalted s then answerNot s .halted 0 else answerNot s .illegalCmd c.word.toNat

/-- The decoder accepts exactly the well-formed raw commands (30_encoding.md R52, R54). -/
def Obligations.DecoderAcceptsExactlyWellFormed : Prop :=
  ∀ c : Command, (∃ i, decode c = .ok i) ↔ c.WellFormed = true

/-- Decoding the encoding of any instruction gives it back, with every operand at every value. -/
def Obligations.DecodeOfEncodeIsTheInstruction : Prop :=
  ∀ i : Instr, decode (encode i) = .ok i

/-- A raw command that decodes is the encoding of what it decodes to: each command has one spelling. -/
def Obligations.EncodeOfDecodeIsTheCommand : Prop :=
  ∀ (c : Command) (i : Instr), decode c = .ok i → encode i = c

/-- 30_encoding.md R52, in the form of log 9: a command with the wrong number of port values, or a value outside its port's
width, is refused before the block sees it. -/
def Obligations.MisfitPortsAreRefused : Prop :=
  ∀ (c : Command) (s : State), c.wordOk = true →
    (c.arityOk = false → takeCommand c s = .refused .portCount) ∧
    (c.arityOk = true → c.rangeOk = false → ∃ k, takeCommand c s = .refused (.portRange k))

/-! ## The host's side -/

/-- 30_encoding.md R57: a line that gives the ports of a command in any order assembles to the command's word and port values.
-/
def Obligations.PortsAssembleInAnyOrder : Prop :=
  ∀ (i : Instr) (given : List (String × Nat)), given.Perm (lineOf i).ports →
    assemble { lineOf i with ports := given } = some (encode i)

/-- 30_encoding.md R58: after SWITCHCTX no barrier is owed, so UENTER is OK, on every variant. -/
def Obligations.SwitchCtxLeavesNoBarrierOwed : Prop :=
  ∀ (seed : Word) (s : State), isHalted s = false → s.inbox = [] →
    ∃ t : State, Host.Core.run Sys2Proof.core 2 (present s (switchCtx seed)) = .next t ∧ t.syncPending = false ∧
      exec .uenter t = answerOk t .empty

/-- 30_encoding.md R58, 70_reset_and_hazards.md R222: BATINIT from reset writes every pair, and BATFREE then answers pair 0.
-/
def Obligations.BatInitFreesEveryPair : Prop :=
  ∀ p : Params, ∃ t : State,
    Host.Core.run Sys2Proof.core p.nBat (present (State.resetWith p) (batInit p)) = .next t ∧
    (∀ i : BitVec 4, i.toNat < p.nBat → readBat t i = some ⟨0, 0⟩) ∧
    exec .batfree t = answerOk t (.batIndex 1 (some 0))

/-- 20_memory.md R41: a page-table entry is stored with `w0` at the lower address and each word most significant byte first,
and its eight bytes give the two words back. -/
def Obligations.PteSerialisationIsBigEndian : Prop :=
  ∀ w0 w1 : Word,
    (pteBytes w0 w1).map (·.toNat) =
      [w0.toNat / 2 ^ 24, w0.toNat / 2 ^ 16 % 2 ^ 8, w0.toNat / 2 ^ 8 % 2 ^ 8, w0.toNat % 2 ^ 8,
        w1.toNat / 2 ^ 24, w1.toNat / 2 ^ 16 % 2 ^ 8, w1.toNat / 2 ^ 8 % 2 ^ 8, w1.toNat % 2 ^ 8] ∧
    pteOfBytes (pteBytes w0 w1) = some (w0, w1)

/-- 43_segment_install.md R160: the parameter a user ceiling gives counts the slots whose whole 256 MiB range lies below it
(log 17: the spec takes the rounding down from general knowledge). -/
def Obligations.EligibleSlotsLieBelowTheCeiling : Prop :=
  ∀ (p : Params) (ceiling n : Nat), p.numUserSegments = userSegmentsBelow ceiling → n < 16 →
    (eligible p n = true ↔ (n + 1) * 2 ^ 28 ≤ ceiling)

/-- 42_bat.md R130, R131: the code of a supported size is the mask of ones, the inverse gives the size back, and the legal
codes are exactly those of the twelve sizes. -/
def Obligations.SizeCodesAreTheTwelveMasks : Prop :=
  (∀ k, 17 ≤ k → k ≤ 28 → sizeCode (2 ^ k) = 2 ^ (k - 17) - 1 ∧ codeSize (sizeCode (2 ^ k)) = 2 ^ k) ∧
  (∀ code, legalCode code = true ↔ ∃ k, 17 ≤ k ∧ k ≤ 28 ∧ code = sizeCode (2 ^ k))
end

