-- ==== Sys2Proof/Laws/Decode.lean ====
section
/-! SUPPORT. The fields of an encoded command word, and the checks of the decoder. -/

namespace Sys2Proof

@[simp] theorem wordOpc_commandWord (opc : BitVec 8) (idx : BitVec 4) : wordOpc (commandWord opc idx) = opc := by
  revert idx opc
  decide

@[simp] theorem wordRsv_commandWord (opc : BitVec 8) (idx : BitVec 4) : wordRsv (commandWord opc idx) = 0 := by
  revert idx opc
  decide

@[simp] theorem wordIdx_commandWord (opc : BitVec 8) (idx : BitVec 4) : wordIdx (commandWord opc idx) = idx := by
  revert idx opc
  decide

/-- The command word of an encoded instruction. -/
theorem encode_word (i : Instr) : (encode i).word = commandWord (opcodeOf i) (indexOf i) := rfl

/-- A command word is its opcode at bits 31:24 with its index at bits 3:0 (30_encoding.md R57). -/
theorem commandWord_eq (opc : BitVec 8) (idx : BitVec 4) :
    commandWord opc idx = opc.setWidth 32 <<< 24 ||| idx.setWidth 32 := rfl

/-- A word whose reserved bits are 0 is the encoding of its opcode and its index. -/
theorem commandWord_of_fields {word : Word} (h : wordRsv word = 0) :
    commandWord (wordOpc word) (wordIdx word) = word := by
  apply BitVec.eq_of_getLsbD_eq
  intro k hk
  simp only [commandWord, wordOpc, wordIdx, BitVec.getLsbD_or, BitVec.getLsbD_shiftLeft, BitVec.getLsbD_setWidth,
    BitVec.getLsbD_extractLsb']
  rcases Nat.lt_or_ge k 4 with h4 | h4
  · simp [h4, show k < 24 by omega, hk]
  · rcases Nat.lt_or_ge k 24 with h24 | h24
    · have hz : (wordRsv word).getLsbD (k - 4) = false := by rw [h]; simp
      simp only [wordRsv, BitVec.getLsbD_extractLsb', show 4 + (k - 4) = k by omega] at hz
      simp [h24, show ¬ k < 4 by omega, hk]
      simpa [show k - 4 < 20 by omega, BitVec.getLsbD_eq_getElem hk] using hz
    · simp [show ¬ k < 24 by omega, show ¬ k < 4 by omega, show k - 24 < 8 by omega, show 24 + (k - 24) = k by omega, hk]
      omega

/-- The port check passes exactly when every value is below 2^N for its port's width N. -/
theorem firstMisfit_eq_none (k : Nat) (ws vs : List Nat) :
    firstMisfit k ws vs = none ↔ ∀ wv ∈ ws.zip vs, wv.2 < 2 ^ wv.1 := by
  induction ws generalizing k vs with
  | nil => simp [firstMisfit]
  | cons w ws ih =>
    cases vs with
    | nil => simp [firstMisfit]
    | cons v vs =>
      by_cases h : v < 2 ^ w <;> simp [firstMisfit, h, ih]

@[simp] theorem portValue_cons_zero {w : Nat} (v : Nat) (vs : List Nat) :
    portValue (w := w) (v :: vs) 0 = BitVec.ofNat w v := rfl

@[simp] theorem portValue_cons_succ {w : Nat} (v : Nat) (vs : List Nat) (k : Nat) :
    portValue (w := w) (v :: vs) (k + 1) = portValue vs k := rfl

end Sys2Proof
end

