-- ==== Sys2Proof/Laws/State.lean ====
section
/-! SUPPORT. One lemma per field of the state per update, all true by definition. -/

namespace Sys2Proof.Machine
@[simp] theorem setSync_params (s : State) (b : Bool) : (setSync s b).params = s.params := rfl
@[simp] theorem setSync_sr (s : State) (b : Bool) : (setSync s b).sr = s.sr := rfl
@[simp] theorem setSync_bat (s : State) (b : Bool) : (setSync s b).bat = s.bat := rfl
@[simp] theorem setSync_syncPending (s : State) (b : Bool) : (setSync s b).syncPending = b := rfl
@[simp] theorem setSync_faults (s : State) (b : Bool) : (setSync s b).faults = s.faults := rfl
@[simp] theorem setSync_inbox (s : State) (b : Bool) : (setSync s b).inbox = s.inbox := rfl
@[simp] theorem setSync_response (s : State) (b : Bool) : (setSync s b).response = s.response := rfl

@[simp] theorem respond_params (s : State) (r : Response) : (respond s r).params = s.params := rfl
@[simp] theorem respond_sr (s : State) (r : Response) : (respond s r).sr = s.sr := rfl
@[simp] theorem respond_bat (s : State) (r : Response) : (respond s r).bat = s.bat := rfl
@[simp] theorem respond_syncPending (s : State) (r : Response) : (respond s r).syncPending = s.syncPending := rfl
@[simp] theorem respond_faults (s : State) (r : Response) : (respond s r).faults = s.faults := rfl
@[simp] theorem respond_inbox (s : State) (r : Response) : (respond s r).inbox = s.inbox := rfl
@[simp] theorem respond_response (s : State) (r : Response) : (respond s r).response = some r := rfl

@[simp] theorem recordFault_params (s : State) (reason : FaultReason) : (recordFault s reason).params = s.params := rfl
@[simp] theorem recordFault_sr (s : State) (reason : FaultReason) : (recordFault s reason).sr = s.sr := rfl
@[simp] theorem recordFault_bat (s : State) (reason : FaultReason) : (recordFault s reason).bat = s.bat := rfl
@[simp] theorem recordFault_syncPending (s : State) (reason : FaultReason) : (recordFault s reason).syncPending = s.syncPending := rfl
@[simp] theorem recordFault_faults (s : State) (reason : FaultReason) : (recordFault s reason).faults = addFault s.faults reason := rfl
@[simp] theorem recordFault_inbox (s : State) (reason : FaultReason) : (recordFault s reason).inbox = s.inbox := rfl
@[simp] theorem recordFault_response (s : State) (reason : FaultReason) : (recordFault s reason).response = s.response := rfl

@[simp] theorem writeSr_params (s : State) (n : BitVec 4) (v : Word) : (writeSr s n v).params = s.params := rfl
@[simp] theorem writeSr_sr (s : State) (n : BitVec 4) (v : Word) : (writeSr s n v).sr = s.sr.set n.toNat (some v) := rfl
@[simp] theorem writeSr_bat (s : State) (n : BitVec 4) (v : Word) : (writeSr s n v).bat = s.bat := rfl
@[simp] theorem writeSr_syncPending (s : State) (n : BitVec 4) (v : Word) : (writeSr s n v).syncPending = s.syncPending := rfl
@[simp] theorem writeSr_faults (s : State) (n : BitVec 4) (v : Word) : (writeSr s n v).faults = s.faults := rfl
@[simp] theorem writeSr_inbox (s : State) (n : BitVec 4) (v : Word) : (writeSr s n v).inbox = s.inbox := rfl
@[simp] theorem writeSr_response (s : State) (n : BitVec 4) (v : Word) : (writeSr s n v).response = s.response := rfl

@[simp] theorem writeBat_params (s : State) (i : BitVec 4) (p : BatPair) : (writeBat s i p).params = s.params := rfl
@[simp] theorem writeBat_sr (s : State) (i : BitVec 4) (p : BatPair) : (writeBat s i p).sr = s.sr := rfl
@[simp] theorem writeBat_bat (s : State) (i : BitVec 4) (p : BatPair) : (writeBat s i p).bat = s.bat.set i.toNat (some p) := rfl
@[simp] theorem writeBat_syncPending (s : State) (i : BitVec 4) (p : BatPair) : (writeBat s i p).syncPending = s.syncPending := rfl
@[simp] theorem writeBat_faults (s : State) (i : BitVec 4) (p : BatPair) : (writeBat s i p).faults = s.faults := rfl
@[simp] theorem writeBat_inbox (s : State) (i : BitVec 4) (p : BatPair) : (writeBat s i p).inbox = s.inbox := rfl
@[simp] theorem writeBat_response (s : State) (i : BitVec 4) (p : BatPair) : (writeBat s i p).response = s.response := rfl

@[simp] theorem withInbox_params (s : State) (events : List HostEvent) : (withInbox s events).params = s.params := rfl
@[simp] theorem withInbox_sr (s : State) (events : List HostEvent) : (withInbox s events).sr = s.sr := rfl
@[simp] theorem withInbox_bat (s : State) (events : List HostEvent) : (withInbox s events).bat = s.bat := rfl
@[simp] theorem withInbox_syncPending (s : State) (events : List HostEvent) : (withInbox s events).syncPending = s.syncPending := rfl
@[simp] theorem withInbox_faults (s : State) (events : List HostEvent) : (withInbox s events).faults = s.faults := rfl
@[simp] theorem withInbox_inbox (s : State) (events : List HostEvent) : (withInbox s events).inbox = events := rfl
@[simp] theorem withInbox_response (s : State) (events : List HostEvent) : (withInbox s events).response = s.response := rfl

@[simp] theorem resetBlock_params (s : State) : (resetBlock s).params = s.params := rfl
@[simp] theorem resetBlock_sr (s : State) : (resetBlock s).sr = Vector.replicate 16 none := rfl
@[simp] theorem resetBlock_bat (s : State) : (resetBlock s).bat = Vector.replicate 16 none := rfl
@[simp] theorem resetBlock_syncPending (s : State) : (resetBlock s).syncPending = false := rfl
@[simp] theorem resetBlock_faults (s : State) : (resetBlock s).faults = ⟨false, false⟩ := rfl
@[simp] theorem resetBlock_inbox (s : State) : (resetBlock s).inbox = s.inbox := rfl
@[simp] theorem resetBlock_response (s : State) : (resetBlock s).response = none := rfl

/-! `noteSrWrite` and `writeSrs` touch one field each. -/

theorem noteSrWrite_eq (s : State) : noteSrWrite s = setSync s (s.syncPending || s.params.syncRequired) := by
  unfold noteSrWrite
  split <;> simp_all [setSync]

@[simp] theorem noteSrWrite_params (s : State) : (noteSrWrite s).params = (s.params) := by simp [noteSrWrite_eq]
@[simp] theorem noteSrWrite_sr (s : State) : (noteSrWrite s).sr = (s.sr) := by simp [noteSrWrite_eq]
@[simp] theorem noteSrWrite_bat (s : State) : (noteSrWrite s).bat = (s.bat) := by simp [noteSrWrite_eq]
@[simp] theorem noteSrWrite_syncPending (s : State) : (noteSrWrite s).syncPending = (s.syncPending || s.params.syncRequired) := by simp [noteSrWrite_eq]
@[simp] theorem noteSrWrite_faults (s : State) : (noteSrWrite s).faults = (s.faults) := by simp [noteSrWrite_eq]
@[simp] theorem noteSrWrite_inbox (s : State) : (noteSrWrite s).inbox = (s.inbox) := by simp [noteSrWrite_eq]
@[simp] theorem noteSrWrite_response (s : State) : (noteSrWrite s).response = (s.response) := by simp [noteSrWrite_eq]

@[simp] theorem writeSrs_params (s : State) (log : List (BitVec 4 × Word)) : (writeSrs s log).params = s.params := by
  induction log generalizing s with
  | nil => rfl
  | cons e rest ih => exact ih (writeSr s e.1 e.2)
@[simp] theorem writeSrs_bat (s : State) (log : List (BitVec 4 × Word)) : (writeSrs s log).bat = s.bat := by
  induction log generalizing s with
  | nil => rfl
  | cons e rest ih => exact ih (writeSr s e.1 e.2)
@[simp] theorem writeSrs_syncPending (s : State) (log : List (BitVec 4 × Word)) : (writeSrs s log).syncPending = s.syncPending := by
  induction log generalizing s with
  | nil => rfl
  | cons e rest ih => exact ih (writeSr s e.1 e.2)
@[simp] theorem writeSrs_faults (s : State) (log : List (BitVec 4 × Word)) : (writeSrs s log).faults = s.faults := by
  induction log generalizing s with
  | nil => rfl
  | cons e rest ih => exact ih (writeSr s e.1 e.2)
@[simp] theorem writeSrs_inbox (s : State) (log : List (BitVec 4 × Word)) : (writeSrs s log).inbox = s.inbox := by
  induction log generalizing s with
  | nil => rfl
  | cons e rest ih => exact ih (writeSr s e.1 e.2)
@[simp] theorem writeSrs_response (s : State) (log : List (BitVec 4 × Word)) : (writeSrs s log).response = s.response := by
  induction log generalizing s with
  | nil => rfl
  | cons e rest ih => exact ih (writeSr s e.1 e.2)

/-! Halting looks at the fault set alone. -/

@[simp] theorem isHalted_respond (s : State) (r : Response) : isHalted (respond s r) = isHalted s := rfl
@[simp] theorem isHalted_setSync (s : State) (b : Bool) : isHalted (setSync s b) = isHalted s := rfl
@[simp] theorem isHalted_writeSr (s : State) (n : BitVec 4) (v : Word) : isHalted (writeSr s n v) = isHalted s := rfl
@[simp] theorem isHalted_writeBat (s : State) (i : BitVec 4) (p : BatPair) : isHalted (writeBat s i p) = isHalted s := rfl
@[simp] theorem isHalted_withInbox (s : State) (es : List HostEvent) : isHalted (withInbox s es) = isHalted s := rfl
@[simp] theorem isHalted_recordFault (s : State) (reason : FaultReason) : isHalted (recordFault s reason) = true := by
  cases reason <;> simp [isHalted, addFault]

/-! Registers read after a write (20_memory.md R44: each write is one whole register). -/

@[simp] theorem readSr_writeSr (s : State) (n m : BitVec 4) (v : Word) :
    readSr (writeSr s n v) m = if n = m then some v else readSr s m := by
  simp only [readSr, writeSr_sr, Vector.getElem_set, BitVec.toNat_inj]

@[simp] theorem readBat_writeBat (s : State) (i j : BitVec 4) (p : BatPair) :
    readBat (writeBat s i p) j = if i = j then some p else readBat s j := by
  simp only [readBat, writeBat_bat, Vector.getElem_set, BitVec.toNat_inj]

theorem readSr_congr {s t : State} (h : t.sr = s.sr) (n : BitVec 4) : readSr t n = readSr s n := by
  simp [readSr, h]

theorem readBat_congr {s t : State} (h : t.bat = s.bat) (i : BitVec 4) : readBat t i = readBat s i := by
  simp [readBat, h]

/-- Two states that agree on every register and every other field are one state. -/
theorem state_ext {s t : State} (hp : t.params = s.params) (hsr : ∀ n, readSr t n = readSr s n)
    (hbat : ∀ i, readBat t i = readBat s i) (hsync : t.syncPending = s.syncPending) (hf : t.faults = s.faults)
    (hi : t.inbox = s.inbox) (hr : t.response = s.response) : t = s := by
  have h1 : t.sr = s.sr := Vector.ext fun k hk => by simpa [readSr, Nat.mod_eq_of_lt hk] using hsr (BitVec.ofNat 4 k)
  have h2 : t.bat = s.bat := Vector.ext fun k hk => by simpa [readBat, Nat.mod_eq_of_lt hk] using hbat (BitVec.ofNat 4 k)
  cases s; cases t; simp_all

end Sys2Proof.Machine
end

