-- ==== Sys2Proof/Laws/Ops.lean ====
section
/-! SUPPORT. For each shared operation, what it can do, said once. -/

namespace Sys2Proof.Machine

/-! ## Ending a command -/

theorem ret_eq (s : State) (r : Results) : ret s r = .next { s with response := some ⟨.ok, 0, some r⟩ } := rfl

theorem raise_eq (s : State) (status : Status) (info : Nat) :
    raise s status info = .next { s with response := some ⟨status, info, none⟩ } := rfl

theorem takeFault_eq (s : State) (reason : FaultReason) (info : Nat) :
    takeFault s reason info = .next { s with faults := addFault s.faults reason,
                                             response := some ⟨stickyStatus reason, info, none⟩ } := rfl

/-- A block that is not halted runs the command's body. -/
theorem unlessHalted_running {s : State} (h : isHalted s = false) (body : Result) : unlessHalted s body = body := by
  simp [unlessHalted, h]

/-- A halted block answers HALTED. -/
theorem unlessHalted_halted {s : State} (h : isHalted s = true) (body : Result) :
    unlessHalted s body = .next { s with response := some ⟨.halted, 0, none⟩ } := by
  simp [unlessHalted, h, raise_eq]

/-- Everything `unlessHalted` can do. -/
theorem unlessHalted_cases (s : State) (body : Result) :
    (isHalted s = true ∧ unlessHalted s body = .next { s with response := some ⟨.halted, 0, none⟩ }) ∨
    (isHalted s = false ∧ unlessHalted s body = body) := by
  cases h : isHalted s
  · exact .inr ⟨rfl, unlessHalted_running h body⟩
  · exact .inl ⟨rfl, unlessHalted_halted h body⟩

/-! ## Reading registers -/

theorem withSr_written {s : State} {n : BitVec 4} {v : Word} (h : readSr s n = some v) (k : Word → Result) :
    withSr s n k = k v := by simp [withSr, h]

theorem withSr_unwritten {s : State} {n : BitVec 4} (h : readSr s n = none) (k : Word → Result) :
    withSr s n k = takeFault s .uninit (16 + n.toNat) := by simp [withSr, h]

theorem withBat_written {s : State} {i : BitVec 4} {p : BatPair} (h : readBat s i = some p) (k : BatPair → Result) :
    withBat s i k = k p := by simp [withBat, h]

theorem withBat_unwritten {s : State} {i : BitVec 4} (h : readBat s i = none) (k : BatPair → Result) :
    withBat s i k = takeFault s .uninit i.toNat := by simp [withBat, h]

theorem checkBatIndex_present {s : State} {i : BitVec 4} (h : i.toNat < s.params.nBat) (body : Result) :
    checkBatIndex s i body = body := by simp [checkBatIndex, Nat.not_le.mpr h]

theorem checkBatIndex_absent {s : State} {i : BitVec 4} (h : s.params.nBat ≤ i.toNat) (body : Result) :
    checkBatIndex s i body = raise s .badIndex i.toNat := by simp [checkBatIndex, h]

/-! ## The scan of BATFREE -/

theorem mem_batIndices (p : Params) (i : BitVec 4) : i ∈ batIndices p ↔ i.toNat < p.nBat := by
  simp only [batIndices, List.mem_map, List.mem_range]
  constructor
  · rintro ⟨k, hk, rfl⟩
    simpa [Nat.mod_eq_of_lt (lt_of_lt_of_le hk p.nBat_le)] using hk
  · intro h
    exact ⟨i.toNat, h, by simp⟩

/-- A prefix of written pairs that are not free is passed over. -/
theorem scanBats_skip {s : State} (front back : List (BitVec 4))
    (h : ∀ j ∈ front, ∃ q, readBat s j = some q ∧ isFree q = false) : scanBats s (front ++ back) = scanBats s back := by
  induction front with
  | nil => rfl
  | cons j rest ih =>
    obtain ⟨q, hq, hf⟩ := h j (by simp)
    simp [scanBats, withBat, hq, hf, ih fun k hk => h k (by simp [hk])]

/-- Everything the scan can do: it stops at a free pair, at an unwritten pair, or at the end of the list, and every pair it has
passed is written and not free. -/
theorem scanBats_cases (s : State) (is : List (BitVec 4)) :
    (∃ front i back p, is = front ++ i :: back ∧ (∀ j ∈ front, ∃ q, readBat s j = some q ∧ isFree q = false) ∧
      readBat s i = some p ∧ isFree p = true ∧ scanBats s is = ret s (.batIndex 1 (some i))) ∨
    (∃ front i back, is = front ++ i :: back ∧ (∀ j ∈ front, ∃ q, readBat s j = some q ∧ isFree q = false) ∧
      readBat s i = none ∧ scanBats s is = takeFault s .uninit i.toNat) ∨
    ((∀ j ∈ is, ∃ q, readBat s j = some q ∧ isFree q = false) ∧ scanBats s is = ret s (.batIndex 0 none)) := by
  induction is with
  | nil => exact .inr (.inr ⟨by simp, rfl⟩)
  | cons i rest ih =>
    cases hi : readBat s i with
    | none => exact .inr (.inl ⟨[], i, rest, rfl, by simp, hi, by simp [scanBats, withBat, hi]⟩)
    | some p =>
      cases hf : isFree p with
      | true => exact .inl ⟨[], i, rest, p, rfl, by simp, hi, hf, by simp [scanBats, withBat, hi, hf]⟩
      | false =>
        have hstep : scanBats s (i :: rest) = scanBats s rest := by simp [scanBats, withBat, hi, hf]
        have hcons : ∀ front : List (BitVec 4), (∀ j ∈ front, ∃ q, readBat s j = some q ∧ isFree q = false) →
            ∀ j ∈ i :: front, ∃ q, readBat s j = some q ∧ isFree q = false := fun front h j hj => by
          rcases List.mem_cons.mp hj with rfl | hj
          · exact ⟨p, hi, hf⟩
          · exact h j hj
        rcases ih with ⟨front, k, back, q, he, hfr, hk, hq, hs⟩ | ⟨front, k, back, he, hfr, hk, hs⟩ | ⟨hall, hs⟩
        · exact .inl ⟨i :: front, k, back, q, by simp [he], hcons front hfr, hk, hq, by rw [hstep, hs]⟩
        · exact .inr (.inl ⟨i :: front, k, back, by simp [he], hcons front hfr, hk, by rw [hstep, hs]⟩)
        · exact .inr (.inr ⟨hcons rest hall, by rw [hstep, hs]⟩)

/-! ## The writes of SRINST -/

/-- The log is the eligible slots in ascending order, each with its value (43_segment_install.md R163). -/
theorem installLog_eq (p : Params) (seed : Word) :
    installLog p seed = (List.range p.numUserSegments).map fun n => (BitVec.ofNat 4 n, installValue seed n) := by
  have h : ∀ k, k ≤ 16 → (List.range 16).filter (fun n => n < k) = List.range k := by decide
  simp [installLog, eligible, h _ p.numUserSegments_le]

/-- A register read after the writes for slots 0 to k - 1. -/
theorem readSr_writeSrs_range (s : State) (f : Nat → Word) (k : Nat) (hk : k ≤ 16) (m : BitVec 4) :
    readSr (writeSrs s ((List.range k).map fun n => (BitVec.ofNat 4 n, f n))) m =
      if m.toNat < k then some (f m.toNat) else readSr s m := by
  induction k with
  | zero => simp [writeSrs]
  | succ k ih =>
    have hstep : writeSrs s ((List.range (k + 1)).map fun n => (BitVec.ofNat 4 n, f n)) =
        writeSr (writeSrs s ((List.range k).map fun n => (BitVec.ofNat 4 n, f n))) (BitVec.ofNat 4 k) (f k) := by
      simp [writeSrs, List.range_succ]
    have heq : BitVec.ofNat 4 k = m ↔ m.toNat = k := by
      rw [← BitVec.toNat_inj, BitVec.toNat_ofNat, Nat.mod_eq_of_lt (by omega)]
      exact eq_comm
    rw [hstep, readSr_writeSr, ih (by omega)]
    by_cases h : m.toNat = k
    · simp [heq, h]
    · rw [if_neg (by simpa [heq] using h)]
      by_cases h' : m.toNat < k
      · rw [if_pos h', if_pos (by omega)]
      · rw [if_neg h', if_neg (by omega)]

/-- What SRINST leaves in each segment register (43_segment_install.md R162). -/
theorem readSr_installed (s : State) (p : Params) (seed : Word) (m : BitVec 4) :
    readSr (writeSrs s (installLog p seed)) m =
      if m.toNat < p.numUserSegments then some (installValue seed m.toNat) else readSr s m := by
  rw [installLog_eq]
  exact readSr_writeSrs_range s _ _ p.numUserSegments_le m

end Sys2Proof.Machine
end

