-- ==== Sys2Proof/Laws/PerInstr.lean ====
section
/-! SUPPORT. Per instruction, as syntax: what the encoder gives is well-formed, and its word is the word of the instruction's
own row of the opcode table. -/

namespace Sys2Proof.Laws.EncodesItsRow

/-- The encoding of an instruction is a well-formed command of the row that has the instruction's mnemonic. -/
def Statement (i : Instr) : Prop :=
  (encode i).WellFormed = true ∧ (rowOf (encode i).word).map (·.mnemonic) = some (mnemonicOf i)

/-- Enough for a command whose row is known: as many values as ports, each within its width. -/
theorem of_row {i : Instr} (row : Row) (hrow : rowOf (commandWord (opcodeOf i) (indexOf i)) = some row)
    (hm : row.mnemonic = mnemonicOf i) (ha : (portsOf i).length = row.ports.length)
    (hr : ∀ pv ∈ row.ports.zip (portsOf i), pv.2 < 2 ^ pv.1.2) : Statement i := by
  have hw : (encode i).word = commandWord (opcodeOf i) (indexOf i) := rfl
  have hports : (encode i).ports = portsOf i := rfl
  refine ⟨?_, by simp [hw, hrow, hm]⟩
  simp only [Command.WellFormed, Command.wordOk, Command.arityOk, Command.rangeOk, hw, hrow, hports, Option.isSome_some, ha,
    beq_self_eq_true, Bool.and_self, Bool.true_and, List.all_eq_true, decide_eq_true_eq]
  exact hr

/-! The rows of the opcodes that use IDX, at every index. -/

theorem row_batwr : ∀ idx : BitVec 4, rowOf (commandWord 0x28 idx) = some
    (rowIdx "BATWR" 0x28000000 [("upper", 32), ("lower", 32)]) := by decide

theorem row_batrd : ∀ idx : BitVec 4, rowOf (commandWord 0x29 idx) = some
    (rowIdx "BATRD" 0x29000000 []) := by decide

theorem row_srwr : ∀ idx : BitVec 4, rowOf (commandWord 0x32 idx) = some
    (rowIdx "SRWR" 0x32000000 [("value", 32)]) := by decide

theorem row_srrd : ∀ idx : BitVec 4, rowOf (commandWord 0x33 idx) = some
    (rowIdx "SRRD" 0x33000000 []) := by decide

theorem vsid (ctx : Word) (seg : BitVec 4) : Statement (.vsid ctx seg) :=
  of_row (rowPlain "VSID" 0x01000000 [("ctx", 32), ("seg", 4)]) (show rowOf (commandWord 0x01 0) = _ by decide) rfl rfl
    (by simp [portsOf, rowPlain]; omega)

theorem vsidea (ctx ea : Word) : Statement (.vsidea ctx ea) :=
  of_row (rowPlain "VSIDEA" 0x02000000 [("ctx", 32), ("ea", 32)]) (show rowOf (commandWord 0x02 0) = _ by decide) rfl rfl
    (by simp [portsOf, rowPlain]; omega)

theorem pteenc (p : PtePorts) : Statement (.pteenc p) :=
  of_row (rowPlain "PTEENC" 0x10000000
      [("v", 32), ("vsid", 32), ("h", 32), ("api", 32), ("rpn", 32), ("xpn", 32), ("r", 32), ("c", 32), ("w", 32),
       ("i", 32), ("m", 32), ("g", 32), ("pp", 32)]) (show rowOf (commandWord 0x10 0) = _ by decide) rfl rfl
    (by simp [portsOf, rowPlain, PtePorts.values]; omega)

theorem ptedec (w0 w1 : Word) : Statement (.ptedec w0 w1) :=
  of_row (rowPlain "PTEDEC" 0x11000000 [("w0", 32), ("w1", 32)]) (show rowOf (commandWord 0x11 0) = _ by decide) rfl rfl
    (by simp [portsOf, rowPlain]; omega)

theorem ppchk (pp : BitVec 2) (key : BitVec 1) : Statement (.ppchk pp key) :=
  of_row (rowPlain "PPCHK" 0x12000000 [("pp", 2), ("key", 1)]) (show rowOf (commandWord 0x12 0) = _ by decide) rfl rfl
    (by simp [portsOf, rowPlain]; omega)

theorem batsize (base top : PhysAddr) : Statement (.batsize base top) :=
  of_row (rowPlain "BATSIZE" 0x20000000 [("base", 64), ("top", 64)]) (show rowOf (commandWord 0x20 0) = _ by decide) rfl rfl
    (by simp [portsOf, rowPlain]; omega)

theorem batfree : Statement .batfree :=
  of_row (rowPlain "BATFREE" 0x21000000 []) (show rowOf (commandWord 0x21 0) = _ by decide) rfl rfl (by simp [rowPlain])

theorem batpenc (pa : PhysAddr) : Statement (.batpenc pa) :=
  of_row (rowPlain "BATPENC" 0x22000000 [("pa", 64)]) (show rowOf (commandWord 0x22 0) = _ by decide) rfl rfl
    (by simp [portsOf, rowPlain]; omega)

theorem batpdec (bits : Word) : Statement (.batpdec bits) :=
  of_row (rowPlain "BATPDEC" 0x23000000 [("bits", 32)]) (show rowOf (commandWord 0x23 0) = _ by decide) rfl rfl
    (by simp [portsOf, rowPlain]; omega)

theorem batuenc (ea code : Word) (vs vp : BitVec 1) : Statement (.batuenc ea code vs vp) :=
  of_row (rowPlain "BATUENC" 0x24000000 [("ea", 32), ("code", 32), ("vs", 1), ("vp", 1)]) (show rowOf (commandWord 0x24 0) = _ by decide) rfl rfl
    (by simp [portsOf, rowPlain]; omega)

theorem batlenc (pa : PhysAddr) (wimg pp : Word) : Statement (.batlenc pa wimg pp) :=
  of_row (rowPlain "BATLENC" 0x25000000 [("pa", 64), ("wimg", 32), ("pp", 32)]) (show rowOf (commandWord 0x25 0) = _ by decide) rfl rfl
    (by simp [portsOf, rowPlain]; omega)

theorem batwr (idx : BitVec 4) (upper lower : Word) : Statement (.batwr idx upper lower) :=
  of_row (rowIdx "BATWR" 0x28000000 [("upper", 32), ("lower", 32)]) (row_batwr idx) rfl rfl
    (by simp [portsOf, rowIdx]; omega)

theorem batrd (idx : BitVec 4) : Statement (.batrd idx) :=
  of_row (rowIdx "BATRD" 0x29000000 []) (row_batrd idx) rfl rfl (by simp [rowIdx])

theorem srinst (seed : Word) : Statement (.srinst seed) :=
  of_row (rowPlain "SRINST" 0x30000000 [("seed", 32)]) (show rowOf (commandWord 0x30 0) = _ by decide) rfl rfl
    (by simp [portsOf, rowPlain]; omega)

theorem srsync : Statement .srsync :=
  of_row (rowPlain "SRSYNC" 0x31000000 []) (show rowOf (commandWord 0x31 0) = _ by decide) rfl rfl (by simp [rowPlain])

theorem srwr (idx : BitVec 4) (value : Word) : Statement (.srwr idx value) :=
  of_row (rowIdx "SRWR" 0x32000000 [("value", 32)]) (row_srwr idx) rfl rfl
    (by simp [portsOf, rowIdx]; omega)

theorem srrd (idx : BitVec 4) : Statement (.srrd idx) :=
  of_row (rowIdx "SRRD" 0x33000000 []) (row_srrd idx) rfl rfl (by simp [rowIdx])

theorem uenter : Statement .uenter :=
  of_row (rowPlain "UENTER" 0x34000000 []) (show rowOf (commandWord 0x34 0) = _ by decide) rfl rfl (by simp [rowPlain])

end Sys2Proof.Laws.EncodesItsRow
end

