-- ==== Sys2Proof/Laws/Step.lean ====
section
/-! SUPPORT. What a step does with each event, said once, and the inversion of a step. -/

namespace Sys2Proof.Machine

theorem step_waiting {s : State} (h : s.inbox = []) : step s = .next s := by simp [step, takeEvent, h]

theorem step_reset {s : State} {rest : List HostEvent} (h : s.inbox = .reset :: rest) :
    step s = .next (resetBlock (withInbox s rest)) := by simp [step, takeEvent, h]

theorem step_command {s : State} {c : Command} {rest : List HostEvent} (h : s.inbox = .command c :: rest) :
    step s = takeCommand c (withInbox s rest) := by simp [step, takeEvent, h]

/-- Why the block answers ILLEGAL_CMD: the steps of 30_encoding.md R54. -/
def isIllegal : DecodeError → Bool
  | .reservedOpcode => true
  | .reservedBits => true
  | .unusedIndex => true
  | .portCount => false
  | .portRange _ => false

theorem takeCommand_ok {c : Command} {i : Instr} (h : decode c = .ok i) (s : State) : takeCommand c s = exec i s := by
  simp [takeCommand, h]

theorem takeCommand_illegal {c : Command} {e : DecodeError} (h : decode c = .error e) (he : isIllegal e = true)
    (s : State) : takeCommand c s = unlessHalted s (raise s .illegalCmd c.word.toNat) := by
  cases e <;> simp_all [takeCommand, isIllegal]

/-- Everything a step that answers a next state can be: waiting, a reset, an executed command, or an illegal word. -/
theorem step_cases {s t : State} (h : step s = .next t) :
    (s.inbox = [] ∧ t = s) ∨
    (∃ rest, s.inbox = .reset :: rest ∧ t = resetBlock (withInbox s rest)) ∨
    (∃ c rest i, s.inbox = .command c :: rest ∧ decode c = .ok i ∧ exec i (withInbox s rest) = .next t) ∨
    (∃ c rest e, s.inbox = .command c :: rest ∧ decode c = .error e ∧ isIllegal e = true ∧
      unlessHalted (withInbox s rest) (raise (withInbox s rest) .illegalCmd c.word.toNat) = .next t) := by
  cases hin : s.inbox with
  | nil => exact .inl ⟨rfl, by simpa [step_waiting hin, eq_comm] using h⟩
  | cons ev rest =>
    cases ev with
    | reset => exact .inr (.inl ⟨rest, rfl, by simpa [step_reset hin, eq_comm] using h⟩)
    | command c =>
      rw [step_command hin] at h
      cases hd : decode c with
      | ok i => exact .inr (.inr (.inl ⟨c, rest, i, rfl, hd, by rwa [takeCommand_ok hd] at h⟩))
      | error e =>
        cases he : isIllegal e with
        | true => exact .inr (.inr (.inr ⟨c, rest, e, rfl, hd, he, by rwa [takeCommand_illegal hd he] at h⟩))
        | false => cases e <;> simp_all [takeCommand, isIllegal]

end Sys2Proof.Machine
end

