-- ==== Sys2Proof/Tests/Slice0.lean ====
section
/-! SUPPORT. Tests with results taken from the spec (95_test_vectors.md and the rules' own examples), the smoke test of the
well-formedness checks, and the witnesses of the obligations' hypotheses. -/

namespace Sys2Proof.Tests

open Sys2Proof.Machine

/-! ## Small states -/

/-- The response a command answers. -/
def reply (r : Result) : Option Response :=
  match r with
  | .next s => s.response
  | .fault _ => none
  | .refused _ => none

/-- The state a command answers; the given state where it stops. -/
def after (s : State) (r : Result) : State :=
  match r with
  | .next t => t
  | .fault _ => s
  | .refused _ => s

/-- Parameters by value, each cut to its range. -/
def paramsOf (extPhys : Bool) (nBat users : Fin 16) (syncRequired : Bool) : Params where
  extPhys := extPhys
  nBat := nBat.val + 1
  numUserSegments := users.val + 1
  syncRequired := syncRequired
  nBat_pos := by omega
  nBat_le := by omega
  numUserSegments_le := by omega

/-- The conventions of 95_test_vectors.md. -/
def s0 : State := State.reset

/-- EXT_PHYS true. -/
def sExt : State := State.resetWith (paramsOf true 3 15 true)

/-- SYNC_REQUIRED false, 8 user segments. -/
def sNoSync : State := State.resetWith (paramsOf false 3 7 false)

/-- Four BAT pairs with these upper words and lower words 0. -/
def withUppers (a b c d : Word) : State :=
  writeBat (writeBat (writeBat (writeBat s0 0 ⟨a, 0⟩) 1 ⟨b, 0⟩) 2 ⟨c, 0⟩) 3 ⟨d, 0⟩

/-- A block with a recorded UNINIT fault. -/
def sHalted : State := after s0 (exec (.srrd 3) s0)

/-- One presented command on the state after reset. -/
def presenting (word : Word) (ports : List Nat) : State := withInbox s0 [.command ⟨word, ports⟩]

/-! ## Well-formedness: an ill-formed command for each check, and a well-formed one -/

theorem test_wf_accepts : Command.WellFormed ⟨0x01000000, [5, 3]⟩ = true := by decide

/-- 95_test_vectors.md L2-13: IDX nonzero for VSID. -/
theorem test_wf_refuses_word : Command.wordOk ⟨0x01000001, [5, 3]⟩ = false := by decide

theorem test_wf_refuses_count :
    Command.wordOk ⟨0x01000000, [5]⟩ = true ∧ Command.arityOk ⟨0x01000000, [5]⟩ = false := by decide

/-- The seg port is 4 bits wide. -/
theorem test_wf_refuses_range :
    Command.arityOk ⟨0x01000000, [5, 16]⟩ = true ∧ Command.rangeOk ⟨0x01000000, [5, 16]⟩ = false := by decide

/-! ## Decoding: words written out from 30_encoding.md R50 and R53 -/

/-- What the decoder reads, `none` where it refuses. -/
def reads (word : Word) (ports : List Nat) : Option Instr :=
  match decode ⟨word, ports⟩ with
  | .ok i => some i
  | .error _ => none

/-- Why the decoder refuses, `none` where it does not. -/
def refuses (word : Word) (ports : List Nat) : Option DecodeError :=
  match decode ⟨word, ports⟩ with
  | .ok _ => none
  | .error e => some e

theorem test_decode_vsid : reads 0b00000001_00000000000000000000_0000 [5, 3] = some (.vsid 5 3) := by decide
theorem test_decode_vsidea : reads 0b00000010_00000000000000000000_0000 [5, 7] = some (.vsidea 5 7) := by decide
theorem test_decode_pteenc : reads 0b00010000_00000000000000000000_0000 [1, 2, 3, 4, 5, 6, 7, 8, 9, 10, 11, 12, 13] =
    some (.pteenc ⟨1, 2, 3, 4, 5, 6, 7, 8, 9, 10, 11, 12, 13⟩) := by decide
theorem test_decode_ptedec : reads 0b00010001_00000000000000000000_0000 [1, 2] = some (.ptedec 1 2) := by decide
theorem test_decode_ppchk : reads 0b00010010_00000000000000000000_0000 [3, 1] = some (.ppchk 3 1) := by decide
theorem test_decode_batsize : reads 0b00100000_00000000000000000000_0000 [1, 2] = some (.batsize 1 2) := by decide
theorem test_decode_batfree : reads 0b00100001_00000000000000000000_0000 [] = some .batfree := by decide
theorem test_decode_batpenc : reads 0b00100010_00000000000000000000_0000 [9] = some (.batpenc 9) := by decide
theorem test_decode_batpdec : reads 0b00100011_00000000000000000000_0000 [9] = some (.batpdec 9) := by decide
theorem test_decode_batuenc : reads 0b00100100_00000000000000000000_0000 [8, 7, 1, 0] = some (.batuenc 8 7 1 0) := by decide
theorem test_decode_batlenc : reads 0b00100101_00000000000000000000_0000 [8, 7, 6] = some (.batlenc 8 7 6) := by decide
theorem test_decode_batwr : reads 0b00101000_00000000000000000000_1010 [1, 2] = some (.batwr 10 1 2) := by decide
theorem test_decode_batrd : reads 0b00101001_00000000000000000000_0011 [] = some (.batrd 3) := by decide
theorem test_decode_srinst : reads 0b00110000_00000000000000000000_0000 [6] = some (.srinst 6) := by decide
theorem test_decode_srsync : reads 0b00110001_00000000000000000000_0000 [] = some .srsync := by decide
theorem test_decode_srwr : reads 0b00110010_00000000000000000000_1100 [6] = some (.srwr 12 6) := by decide
theorem test_decode_srrd : reads 0b00110011_00000000000000000000_0100 [] = some (.srrd 4) := by decide
theorem test_decode_uenter : reads 0b00110100_00000000000000000000_0000 [] = some .uenter := by decide

/-- 95_test_vectors.md L2-13: reserved opcodes. -/
theorem test_decode_reserved_opcodes :
    ([0x00000000, 0x03000000, 0x26000000, 0x35000000, 0xFF000000] : List Word).map (refuses · []) =
      List.replicate 5 (some .reservedOpcode) := by decide

/-- 95_test_vectors.md L2-13: RSV nonzero, even though BATWR uses IDX. -/
theorem test_decode_reserved_bits :
    refuses 0x01000010 [] = some .reservedBits ∧ refuses 0x28000010 [] = some .reservedBits := by decide

/-- 95_test_vectors.md L2-13: IDX nonzero for VSID. -/
theorem test_decode_unused_index : refuses 0x01000001 [] = some .unusedIndex := by decide

/-- 30_encoding.md R52: PPCHK's key is 1 bit wide. -/
theorem test_decode_port_range : refuses 0x12000000 [3, 2] = some (.portRange 1) := by decide

theorem test_decode_port_count : refuses 0x12000000 [3] = some .portCount := by decide

theorem test_table_word : decodeTableWord 32 0x32000003 = some (.srwr 3 0) := by decide

/-! ## VSID mapper -/

/-- 95_test_vectors.md L1-2. -/
theorem test_vsid_extreme : reply (exec (.vsid 0xFFFFFFFF 15) s0) = some ⟨.ok, 0, some (.vsid 0xFFD7EF)⟩ := by decide

/-- 95_test_vectors.md L2-1: collides with context 5. -/
theorem test_vsid_wraps : reply (exec (.vsid 0x100005 3) s0) = some ⟨.ok, 0, some (.vsid 0x011B83)⟩ := by decide

/-- 95_test_vectors.md L2-1. -/
theorem test_vsidea_top : reply (exec (.vsidea 5 0xFFFFFFFF) s0) = some ⟨.ok, 0, some (.vsidSeg 0x01284F 15)⟩ := by decide

/-- 95_test_vectors.md L2-1. -/
theorem test_vsidea_edge : reply (exec (.vsidea 5 0x10000000) s0) = some ⟨.ok, 0, some (.vsidSeg 0x011961 1)⟩ := by decide

/-! ## Page-table entries -/

/-- The example of 41_pte_codec.md R115. -/
theorem test_pteenc_example :
    reply (exec (.pteenc ⟨1, 0x011B83, 0, 0x2A, 0x12345, 0, 1, 0, 0, 0, 1, 0, 2⟩) s0) =
      some ⟨.ok, 0, some (.pteWords 0x808DC1AA 0x12345112)⟩ := by decide

/-- 95_test_vectors.md L2-2: all fields at their maximum, in both modes. -/
theorem test_pteenc_maximum :
    reply (exec (.pteenc ⟨1, 0xFFFFFF, 1, 0x3F, 0xFFFFF, 7, 1, 1, 1, 1, 1, 1, 3⟩) s0) = some ⟨.encRange, 5, none⟩ ∧
    reply (exec (.pteenc ⟨1, 0xFFFFFF, 1, 0x3F, 0xFFFFF, 7, 1, 1, 1, 1, 1, 1, 3⟩) sExt) =
      some ⟨.ok, 0, some (.pteWords 0xFFFFFFFF 0xFFFFFFFB)⟩ := by decide

/-- The example of 41_pte_codec.md R116. -/
theorem test_ptedec_example :
    reply (exec (.ptedec 0x808DC1AA 0x12345112) s0) =
      some ⟨.ok, 0, some (.pteFields ⟨1, 0x011B83, 0, 0x2A, 0x12345, 0, 1, 0, 0, 0, 1, 0, 2⟩ 0x12345)⟩ := by decide

/-- 95_test_vectors.md L2-3: the reserved bit is checked first. -/
theorem test_ptedec_refuses :
    reply (exec (.ptedec 0 0x00000204) s0) = some ⟨.decReserved, 2, none⟩ ∧
    reply (exec (.ptedec 0 0x00000200) s0) = some ⟨.decReserved, 11, none⟩ := by decide

/-- 95_test_vectors.md L1-3: the user column. -/
theorem test_ppchk_user :
    ([0, 1, 2, 3] : List (BitVec 2)).map (fun pp => reply (exec (.ppchk pp 1) s0)) =
      ([0, 1, 2, 1] : List (BitVec 2)).map fun r => some ⟨.ok, 0, some (.rights r)⟩ := by decide

/-- 95_test_vectors.md L1-3: the supervisor column. -/
theorem test_ppchk_supervisor :
    ([0, 1, 2, 3] : List (BitVec 2)).map (fun pp => reply (exec (.ppchk pp 0) s0)) =
      ([2, 2, 2, 1] : List (BitVec 2)).map fun r => some ⟨.ok, 0, some (.rights r)⟩ := by decide

/-! ## BAT allocator -/

/-- 95_test_vectors.md L1-4: 3 MiB is no supported size. -/
theorem test_batsize_rounds_down :
    reply (exec (.batsize 0 0x300000) s0) = some ⟨.ok, 0, some (.batSize 0x200000 0x00F 1)⟩ := by decide

/-- 95_test_vectors.md L2-5: the cap, with the PA width not checked. -/
theorem test_batsize_cap :
    reply (exec (.batsize 0x200000000 0x300000000) s0) = some ⟨.ok, 0, some (.batSize 0x10000000 0x7FF 1)⟩ := by decide

/-- 95_test_vectors.md L2-6. -/
theorem test_batfree_finds :
    reply (exec .batfree (withUppers 0x3E 0 0x1000007E 0)) = some ⟨.ok, 0, some (.batIndex 1 (some 1))⟩ := by decide

/-- 95_test_vectors.md L2-6: the second pair is unwritten. -/
theorem test_batfree_faults :
    reply (exec .batfree (writeBat s0 0 ⟨2, 0⟩)) = some ⟨.faultUninit, 1, none⟩ := by decide

/-- 95_test_vectors.md L2-7. -/
theorem test_batpenc_extended :
    reply (exec (.batpenc 0x3FFFE0000) sExt) = some ⟨.ok, 0, some (.batBits 0x0003FFFF)⟩ := by decide

/-- 95_test_vectors.md L2-7: the range is checked before the alignment. -/
theorem test_batpenc_refuses :
    reply (exec (.batpenc 0xFFFFFFFFFFFFFFFF) s0) = some ⟨.encRange, 0, none⟩ ∧
    reply (exec (.batpenc 0x12350000) s0) = some ⟨.encAlign, 0, none⟩ := by decide

/-- 95_test_vectors.md L2-7. -/
theorem test_batpdec_extended :
    reply (exec (.batpdec 0x00010001) sExt) = some ⟨.ok, 0, some (.batPa 0x100000000)⟩ ∧
    reply (exec (.batpdec 0x00010000) sExt) = some ⟨.decMalformed, 0x10000, none⟩ := by decide

/-- 95_test_vectors.md L2-7. -/
theorem test_batpdec_masks :
    reply (exec (.batpdec 0x8000002A) s0) = some ⟨.ok, 0, some (.batPa 0x80000000)⟩ := by decide

/-- 95_test_vectors.md L2-8. -/
theorem test_batuenc_composes :
    reply (exec (.batuenc 0x10000000 0x7FF 0 1) s0) = some ⟨.ok, 0, some (.batUpper 0x10001FFD)⟩ := by decide

/-- 95_test_vectors.md L2-8. -/
theorem test_batuenc_refuses :
    reply (exec (.batuenc 0x00020000 0x1 1 1) s0) = some ⟨.encAlign, 0, none⟩ ∧
    reply (exec (.batuenc 0 0x800 1 0) s0) = some ⟨.encRange, 1, none⟩ := by decide

/-- 95_test_vectors.md L2-9. -/
theorem test_batlenc_composes :
    reply (exec (.batlenc 0xFFFE0000 15 3) s0) = some ⟨.ok, 0, some (.batLower 0xFFFE007B)⟩ := by decide

/-- 95_test_vectors.md L2-9: the mode first, then the address. -/
theorem test_batlenc_refuses :
    reply (exec (.batlenc 0x12350000 16 4) sExt) = some ⟨.unsupported, 0, none⟩ ∧
    reply (exec (.batlenc 0x12350000 16 4) s0) = some ⟨.encAlign, 0, none⟩ := by decide

/-- 95_test_vectors.md L2-10. -/
theorem test_batwr_writes :
    readBat (after s0 (exec (.batwr 2 0xC000003E 0x2A) s0)) 2 = some ⟨0xC000003E, 0x0000002A⟩ := by decide

/-- 95_test_vectors.md L2-10. -/
theorem test_batwr_bad_index : reply (exec (.batwr 4 0 0) s0) = some ⟨.badIndex, 4, none⟩ := by decide

/-- 95_test_vectors.md L2-10. -/
theorem test_batrd_answers :
    reply (exec (.batrd 2) (writeBat s0 2 ⟨0xC000003E, 0x2A⟩)) =
      some ⟨.ok, 0, some (.batPair 0xC000003E 0x0000002A)⟩ := by decide

/-- 95_test_vectors.md L2-10. -/
theorem test_batrd_refuses :
    reply (exec (.batrd 5) s0) = some ⟨.badIndex, 5, none⟩ ∧
    reply (exec (.batrd 0) s0) = some ⟨.faultUninit, 0, none⟩ := by decide

/-! ## Segment registers -/

/-- 90_conflicts.md C1: the corrected example. -/
theorem test_srinst_example :
    readSr (after s0 (exec (.srinst 0x12345670) s0)) 4 = some 0x10345AB4 ∧
    (after s0 (exec (.srinst 0x12345670) s0)).syncPending = true := by decide

/-- 95_test_vectors.md P5: the eighth slot is written, the ninth is not. -/
theorem test_srinst_skips :
    readSr (after sNoSync (exec (.srinst 0x12345670) sNoSync)) 7 = some 0x10345DE7 ∧
    readSr (after sNoSync (exec (.srinst 0x12345670) sNoSync)) 8 = none := by decide

/-- 43_segment_install.md R168. -/
theorem test_srsync_clears : (after s0 (exec .srsync (setSync s0 true))).syncPending = false := by decide

/-- The example of 43_segment_install.md R166, on a variant that needs the barrier and on one that does not. -/
theorem test_srwr_writes :
    readSr (after s0 (exec (.srwr 12 0x20FFFFFF) s0)) 12 = some 0x20FFFFFF ∧
    (after s0 (exec (.srwr 12 0x20FFFFFF) s0)).syncPending = true ∧
    (after s0 (exec (.srwr 12 0x20FFFFFF) sNoSync)).syncPending = false := by decide

/-- 95_test_vectors.md L2-12. -/
theorem test_srrd_answers :
    reply (exec (.srrd 5) (writeSr s0 5 0x20FFFFFF)) = some ⟨.ok, 0, some (.srValue 0x20FFFFFF)⟩ := by decide

/-- 95_test_vectors.md L2-12. -/
theorem test_srrd_faults :
    reply (exec (.srrd 3) s0) = some ⟨.faultUninit, 19, none⟩ ∧ sHalted.faults = ⟨true, false⟩ := by decide

/-- 95_test_vectors.md P3. -/
theorem test_uenter_faults :
    reply (exec .uenter (setSync s0 true)) = some ⟨.faultHazard, 0, none⟩ ∧
    (after s0 (exec .uenter (setSync s0 true))).faults = ⟨false, true⟩ := by decide

/-- 95_test_vectors.md L2-12. -/
theorem test_uenter_ok : reply (exec .uenter s0) = some ⟨.ok, 0, some .empty⟩ := by decide

/-! ## Statuses, steps and the host's side -/

/-- 60_exceptions.md R200: the codes are 0 to 12. -/
theorem test_status_codes :
    [Status.ok, .illegalCmd, .badIndex, .encRange, .encAlign, .decReserved, .decMalformed, .rangeOrder, .noSize, .unsupported,
      .faultUninit, .faultHazard, .halted].map statusCode = List.range 13 := by decide

/-- 95_test_vectors.md L2-13. -/
theorem test_step_illegal : reply (step (presenting 0x03000000 [])) = some ⟨.illegalCmd, 0x03000000, none⟩ := by decide

/-- 95_test_vectors.md L2-13: any word while halted. -/
theorem test_step_halted :
    reply (step (withInbox sHalted [.command ⟨0x03000000, []⟩])) = some ⟨.halted, 0, none⟩ := by decide

/-- 70_reset_and_hazards.md R221: the block waits for the host's first command. -/
theorem test_step_waits : after sHalted (step s0) = s0 := by decide

/-- 60_exceptions.md R206: reset leaves the halted state. -/
theorem test_step_reset : after s0 (step (withInbox sHalted [.reset])) = s0 := by decide

/-- `withFetchWord` presents the word, every port 0: the first step after reset runs it. -/
theorem test_fetch_word : step (s0.withFetchWord 32 0x30000000) = exec (.srinst 0) s0 := rfl

/-- The examples of 30_encoding.md R57 (SRWR.4 value=0x60003c54 is 1610628180 in decimal), ports in any order, and a comment. -/
theorem test_assemble_text :
    assembleText s0.params ["SRWR.4 value=0x60003c54 ; comment".toList, "VSID seg=3, ctx=5".toList, "BATFREE".toList] =
      some [⟨0x32000004, [1610628180]⟩, ⟨0x01000000, [5, 3]⟩, ⟨0x21000000, []⟩] := by decide

/-- 30_encoding.md R58, with N_BAT = 4. -/
theorem test_assemble_pseudo :
    assembleText s0.params ["BATINIT".toList, "SWITCHCTX seed=7".toList] =
      some [⟨0x28000000, [0, 0]⟩, ⟨0x28000001, [0, 0]⟩, ⟨0x28000002, [0, 0]⟩, ⟨0x28000003, [0, 0]⟩, ⟨0x30000000, [7]⟩,
        ⟨0x31000000, []⟩] := by decide

/-- 30_encoding.md R57: `.IDX` exactly when the command uses IDX, and every port given. -/
theorem test_assemble_refuses :
    (["SRRD", "VSID.1 ctx=5, seg=3", "VSID ctx=5"].map fun t => assembleText s0.params [t.toList]) =
      [none, none, none] := by decide

/-- 20_memory.md R41. -/
theorem test_pte_bytes :
    pteBytes 0x808DC1AA 0x12345112 = [0x80, 0x8D, 0xC1, 0xAA, 0x12, 0x34, 0x51, 0x12] := by decide

/-! ## Witnesses: states and operands that meet the hypotheses of the obligations -/

/-- The hypothesis that the block is not halted, of most obligations. -/
theorem test_witness_running : isHalted s0 = false ∧ isHalted sExt = false ∧ isHalted sNoSync = false := by decide

/-- HaltedBlockAnswersHaltedUntilReset: a halted state, an illegal word, a well-formed command, and what its taking leaves. -/
theorem test_witness_halted :
    isHalted sHalted = true ∧ Command.wordOk ⟨0x03000000, []⟩ = false ∧ Command.WellFormed ⟨0x34000000, []⟩ = true ∧
    (after s0 (takeCommand ⟨0x34000000, []⟩ sHalted)).faults = ⟨true, false⟩ := by decide

/-- VsidCollisionsAreExactlyMod20, both directions. -/
theorem test_witness_collision :
    exec (.vsid 0x100005 3) s0 = exec (.vsid 5 3) s0 ∧ (0x100005 : Word).toNat % 2 ^ 20 = (5 : Word).toNat % 2 ^ 20 := by
  exact ⟨rfl, by decide⟩

/-- The fields of a PTEENC, as PteencChecksWidthsThenPacks lists them. -/
def fieldsOf (p : PtePorts) : List (Word × Nat) :=
  [(p.v, 1), (p.vsid, 24), (p.h, 1), (p.api, 6), (p.rpn, 20), (p.xpn, 3), (p.r, 1), (p.c, 1), (p.w, 1), (p.i, 1), (p.m, 1),
    (p.g, 1), (p.pp, 2)]

/-- PteencChecksWidthsThenPacks, first clause: only the last field is too wide, by one. -/
theorem test_witness_pteenc_wide :
    (fieldsOf ⟨1, 0xFFFFFF, 1, 63, 0xFFFFF, 7, 1, 1, 1, 1, 1, 1, 4⟩)[12]? = some (4, 2) ∧ 2 ^ 2 ≤ (4 : Word).toNat ∧
    (∀ f ∈ (fieldsOf ⟨1, 0xFFFFFF, 1, 63, 0xFFFFF, 7, 1, 1, 1, 1, 1, 1, 4⟩).take 12, f.1.toNat < 2 ^ f.2) := by decide

/-- PteencChecksWidthsThenPacks, second and third clauses: every field at its maximum. -/
theorem test_witness_pteenc_fits :
    (∀ f ∈ fieldsOf ⟨1, 0xFFFFFF, 1, 63, 0xFFFFF, 7, 1, 1, 1, 1, 1, 1, 3⟩, f.1.toNat < 2 ^ f.2) ∧
    s0.params.extPhys = false ∧ (7 : Word) ≠ 0 ∧ sExt.params.extPhys = true := by decide

/-- PtedecChecksReservedThenSplits, the three clauses. -/
theorem test_witness_ptedec :
    (0x00000004 : Word).getLsbD 2 = true ∧ (0x00000200 : Word).getLsbD 2 = false ∧
    (0x00000200 : Word).toNat / 2 ^ 9 % 2 ^ 3 ≠ 0 ∧ (0xFFFFF1FB : Word).getLsbD 2 = false ∧
    (0xFFFFF1FB : Word).toNat / 2 ^ 9 % 2 ^ 3 = 0 := by decide

/-- PteCodecRoundTrips: an accepted encoding and an accepted decoding. -/
theorem test_witness_pte_round_trip :
    exec (.pteenc ⟨1, 0x011B83, 0, 0x2A, 0x12345, 0, 1, 0, 0, 0, 1, 0, 2⟩) s0 =
      answerOk s0 (.pteWords 0x808DC1AA 0x12345112) ∧
    exec (.ptedec 0x808DC1AA 0x12345112) s0 =
      answerOk s0 (.pteFields ⟨1, 0x011B83, 0, 0x2A, 0x12345, 0, 1, 0, 0, 0, 1, 0, 2⟩ 0x12345) := ⟨rfl, rfl⟩

/-- BatsizeTakesLargestSize, the three clauses, at their boundaries. -/
theorem test_witness_batsize :
    (4 : PhysAddr).toNat < (5 : PhysAddr).toNat ∧ (0x1FFFF : PhysAddr).toNat - (0 : PhysAddr).toNat < 2 ^ 17 ∧
    (7 : PhysAddr).toNat ≤ (7 : PhysAddr).toNat ∧ 2 ^ 17 ≤ (0x20000 : PhysAddr).toNat - (0 : PhysAddr).toNat := by decide

/-- BatfreeStopsAtFirstFreePair: a free pair 1 after a valid pair 0. -/
theorem test_witness_batfree_free :
    (1 : BitVec 4).toNat < (withUppers 2 0 2 2).params.nBat ∧ readBat (withUppers 2 0 2 2) 1 = some ⟨0, 0⟩ ∧
    (0 : Word).toNat % 4 = 0 ∧ readBat (withUppers 2 0 2 2) 0 = some ⟨2, 0⟩ ∧ (2 : Word).toNat % 4 ≠ 0 := by decide

/-- BatfreeStopsAtFirstFreePair: the last pair unwritten after valid ones, and no free pair at all. -/
theorem test_witness_batfree_others :
    readBat (writeBat (writeBat (writeBat s0 0 ⟨2, 0⟩) 1 ⟨1, 0⟩) 2 ⟨3, 0⟩) 3 = none ∧
    ([0, 1, 2] : List (BitVec 4)).map (readBat (writeBat (writeBat (writeBat s0 0 ⟨2, 0⟩) 1 ⟨1, 0⟩) 2 ⟨3, 0⟩) ·) =
      [some ⟨2, 0⟩, some ⟨1, 0⟩, some ⟨3, 0⟩] ∧
    ([0, 1, 2, 3] : List (BitVec 4)).map (readBat (withUppers 2 1 3 2) ·) =
      [some ⟨2, 0⟩, some ⟨1, 0⟩, some ⟨3, 0⟩, some ⟨2, 0⟩] := by decide

/-- BatfreeIgnoresLowerWords: two states that differ in a lower word. -/
theorem test_witness_batfree_lower :
    s0.params = (writeBat s0 0 ⟨2, 5⟩).params ∧
    (∀ i, (readBat (writeBat s0 0 ⟨2, 5⟩) i).map (·.upper) = (readBat (writeBat s0 0 ⟨2, 6⟩) i).map (·.upper)) := by decide

/-- BatpencEncodesOrRefuses and BatAddressRoundTrips, at the limits of both modes. -/
theorem test_witness_batpenc :
    2 ^ 32 ≤ (0x100000000 : PhysAddr).toNat ∧ (0xFFFE0000 : PhysAddr).toNat < 2 ^ 32 ∧
    (0xFFFE0000 : PhysAddr).toNat % 2 ^ 17 = 0 ∧ (0x3FFFE0000 : PhysAddr).toNat < 2 ^ 34 ∧
    (0x3FFFE0000 : PhysAddr).toNat % 2 ^ 17 = 0 ∧ 2 ^ 34 ≤ (0x400000000 : PhysAddr).toNat ∧
    (0x1FFFF : PhysAddr).toNat % 2 ^ 17 ≠ 0 := by decide

/-- BatpdecDecodesOrRefuses, the two ways to be malformed and the accepted form; BatAddressRoundTrips, an accepted decoding. -/
theorem test_witness_batpdec :
    (0x00040000 : Word).toNat / 2 ^ 18 ≠ 0 ∧ (0x00010000 : Word).toNat % 2 ≠ (0x00010000 : Word).toNat / 2 ^ 16 % 2 ∧
    (0x0003FFFF : Word).toNat / 2 ^ 18 = 0 ∧ (0x0003FFFF : Word).toNat % 2 = (0x0003FFFF : Word).toNat / 2 ^ 16 % 2 ∧
    reply (exec (.batpdec 0x0003FFFF) sExt) = some ⟨.ok, 0, some (.batPa 0x3FFFE0000)⟩ := by decide

/-- BatuencChecksThenComposes: no legal code, an address not aligned, the largest code with an aligned address. -/
theorem test_witness_batuenc :
    (∀ j, j ≤ 11 → (5 : Word).toNat ≠ 2 ^ j - 1) ∧ (0x00020000 : Word).toNat % ((1 + 1) * 2 ^ 17) ≠ 0 ∧
    (0x7FF : Word).toNat = 2 ^ 11 - 1 ∧ (0xC0000000 : Word).toNat % ((0x7FF + 1) * 2 ^ 17) = 0 := by decide

/-- UpperWordHoldsItsFields, LowerWordHoldsItsFields and BatuencAcceptsBatsizeCode: accepted commands. -/
theorem test_witness_bat_words :
    exec (.batuenc 0xC0000000 0xF 1 0) s0 = answerOk s0 (.batUpper 0xC000003E) ∧
    exec (.batlenc 0x80000000 5 2) s0 = answerOk s0 (.batLower 0x8000002A) ∧
    exec (.batsize 0 0x200000) s0 = answerOk s0 (.batSize 0x200000 0x00F 1) ∧
    (0xC0000000 : Word).toNat % (0x200000 : BitVec 29).toNat = 0 := ⟨rfl, rfl, rfl, by decide⟩

/-- BatlencChecksThenComposes: the boundaries of the address, of WIMG and of PP. -/
theorem test_witness_batlenc :
    (0xFFFE0000 : PhysAddr).toNat < 2 ^ 32 ∧ (15 : Word).toNat < 16 ∧ 16 ≤ (16 : Word).toNat ∧ (3 : Word).toNat < 4 ∧
    4 ≤ (4 : Word).toNat ∧ (0x12350000 : PhysAddr).toNat % 2 ^ 17 ≠ 0 := by decide

/-- BatwrWritesOnePair, BatrdAnswersThePair and ReadAfterWriteAnswersTheWords: the indices around N_BAT, an unwritten pair and a
written one. -/
theorem test_witness_bat_index :
    s0.params.nBat ≤ (4 : BitVec 4).toNat ∧ (3 : BitVec 4).toNat < s0.params.nBat ∧ readBat s0 3 = none ∧
    readBat (writeBat s0 3 ⟨1, 2⟩) 3 = some ⟨1, 2⟩ := by decide

/-- SrinstInstallsEligibleSlots: the slots around NUM_USER_SEGMENTS, and both variants. -/
theorem test_witness_srinst :
    (7 : BitVec 4).toNat < sNoSync.params.numUserSegments ∧ sNoSync.params.numUserSegments ≤ (8 : BitVec 4).toNat ∧
    sNoSync.params.syncRequired = false ∧ s0.params.syncRequired = true := by decide

/-- InstalledSlotsHoldTheirVsids: the seed VSID(0x400, 0) with flags, of 95_test_vectors.md L2-11. -/
theorem test_witness_vsid_seed : (srVsid 0x60E04000).toNat = (0x400 : Word).toNat * 0x3810 % 2 ^ 24 := by decide

/-- InstalledSlotsAreSkewed: the last two slots. -/
theorem test_witness_skew :
    (15 : BitVec 4).toNat = (14 : BitVec 4).toNat + 1 ∧ (15 : BitVec 4).toNat < s0.params.numUserSegments := by decide

/-- SrrdAnswersTheRegister: an unwritten register and a written one. -/
theorem test_witness_srrd : readSr s0 15 = none ∧ readSr (writeSr s0 15 7) 15 = some 7 := by decide

/-- UenterChecksBarrierFlag: both values of the flag. -/
theorem test_witness_uenter : (setSync s0 true).syncPending = true ∧ (setSync s0 false).syncPending = false := by decide

/-- UenterChecksBarrierFlag and SrsyncClearsBarrierFlag, the clauses without SYNC_REQUIRED: a state with the invariant whose segment registers have been written. -/
theorem test_witness_uenter_consistent :
    Consistent (writeSr sNoSync 3 7) ∧ (writeSr sNoSync 3 7).params.syncRequired = false :=
  ⟨⟨by decide, by decide, (fun _ h => by cases h), by decide, by decide, by decide⟩, by decide⟩

/-- StatusesComeFromTheirCommands, and the statements about the next state of a command: one that answers. -/
theorem test_witness_exec_next :
    exec .uenter s0 = .next (respond s0 ⟨.ok, 0, some .empty⟩) ∧
    (respond s0 ⟨.ok, 0, some .empty⟩).response = some ⟨.ok, 0, some .empty⟩ := ⟨rfl, rfl⟩

/-- StatusesComeFromTheirCommands, the arms of RANGE_ORDER and NO_SIZE: ranges just outside the two checks of BATSIZE. -/
theorem test_witness_range_statuses :
    reply (exec (.batsize 5 4) s0) = some ⟨.rangeOrder, 0, none⟩ ∧
    reply (exec (.batsize 0 0x1FFFF) s0) = some ⟨.noSize, 0, none⟩ := by decide

/-- PureCommandsTouchNoState: two states with different segment registers. -/
theorem test_witness_pure :
    isPure (.batsize 0 0) = true ∧ s0.params = (writeSr s0 1 2).params ∧ isHalted s0 = isHalted (writeSr s0 1 2) := by decide

/-- SegmentRegistersHaveTwoWritersAndOneReader: the last eligible slot of an SRINST, and an SRWR beyond the ceiling. -/
theorem test_witness_sr_writers :
    readSr (after s0 (exec (.srinst 0) sNoSync)) 7 ≠ readSr sNoSync 7 ∧
    readSr (after s0 (exec (.srwr 15 1) sNoSync)) 15 ≠ readSr sNoSync 15 := by decide

/-- BatPairsHaveOneWriterAndTwoReaders: a BATWR changes its pair. -/
theorem test_witness_bat_writer : readBat (after s0 (exec (.batwr 3 1 2) s0)) 3 ≠ readBat s0 3 := by decide

/-- ResetLeavesTheStatedValues: a reset of a halted block. -/
theorem test_witness_reset : isHalted sHalted = true ∧ resetBlock sHalted ≠ sHalted := by decide

/-- StepKeepsConsistent and StepTakesTheOldestEvent: a state with the invariant whose step answers. -/
theorem test_witness_step :
    Consistent (presenting 0x03000000 []) ∧
    step (presenting 0x03000000 []) = .next (respond s0 ⟨.illegalCmd, 0x03000000, none⟩) :=
  ⟨⟨by decide, by decide, (fun _ h => by cases h), by decide, by decide, by decide⟩, rfl⟩

/-- StepExecutesTheDecodedCommand: a command that decodes, a reset, and nothing presented. -/
theorem test_witness_decoded :
    (presenting 0x34000000 []).inbox = [.command ⟨0x34000000, []⟩] ∧ decode ⟨0x34000000, []⟩ = .ok .uenter ∧
    (withInbox sHalted [.reset]).inbox = [.reset] ∧ s0.inbox = [] := ⟨by decide, rfl, by decide, by decide⟩

/-- BarrierRespectingRunNeverFaultsHazard: SRWR, SRSYNC, UENTER on a variant that needs the barrier, run to its end. -/
theorem test_witness_barrier :
    s0.faults.hazard = false ∧
    respectsBarrier s0.params.syncRequired s0.syncPending (present s0 [.srwr 5 1, .srsync, .uenter]).inbox = true ∧
    reply (Host.Core.run Sys2Proof.core 3 (present s0 [.srwr 5 1, .srsync, .uenter])) = some ⟨.ok, 0, some .empty⟩ := by
  decide

/-- DecoderFollowsTheOpcodeTable and EncodeOfDecodeIsTheCommand: an accepted command and its row. -/
theorem test_witness_row :
    decode ⟨0x3200000F, [9]⟩ = .ok (.srwr 15 9) ∧ rowIdx "SRWR" 0x32000000 [("value", 32)] ∈ opcodeTable ∧
    (0x3200000F : Word) &&& 0xFFFFFFF0 = 0x32000000 := ⟨rfl, by decide, by decide⟩

/-- IllegalWordAnswersIllegalCmd: the ends of the reserved ranges, a nonzero RSV and a nonzero unused IDX. -/
theorem test_witness_illegal :
    0x35 ≤ (0x35000000 : Word).toNat / 2 ^ 24 ∧
    (0x0F000000 : Word).toNat / 2 ^ 24 = 0x0F ∧ (0x28000010 : Word).toNat / 2 ^ 4 % 2 ^ 20 ≠ 0 ∧
    (0x31 : Nat) ∉ [0x28, 0x29, 0x32, 0x33] ∧ (0x3100000F : Word).toNat % 2 ^ 4 ≠ 0 := by decide

/-- MisfitPortsAreRefused: a command with one value too few, and one whose value is just outside its port. -/
theorem test_witness_misfit :
    Command.wordOk ⟨0x12000000, [3]⟩ = true ∧ Command.arityOk ⟨0x12000000, [3]⟩ = false ∧
    Command.arityOk ⟨0x12000000, [3, 2]⟩ = true ∧ Command.rangeOk ⟨0x12000000, [3, 2]⟩ = false := by decide

/-- PortsAssembleInAnyOrder: the ports of a line turned round. -/
theorem test_witness_any_order : [("seg", 3), ("ctx", 5)].Perm (lineOf (.vsid 5 3)).ports := by decide

/-- SwitchCtxLeavesNoBarrierOwed: the state after reset has nothing presented. -/
theorem test_witness_switch : isHalted s0 = false ∧ s0.inbox = [] := by decide

/-- EligibleSlotsLieBelowTheCeiling: a ceiling inside slot 3. -/
theorem test_witness_ceiling : (paramsOf false 3 2 true).numUserSegments = userSegmentsBelow 0x3FFFFFFF ∧ 3 < 16 := by decide

/-- SizeCodesAreTheTwelveMasks: the ends of the range. -/
theorem test_witness_sizes : 17 ≤ 17 ∧ 17 ≤ 28 ∧ 28 ≤ 28 ∧ sizeCode (2 ^ 17) = 0 ∧ sizeCode (2 ^ 28) = 0x7FF := by decide

end Sys2Proof.Tests
end

section
/-! SUPPORT. The proof that the pure commands answer from their ports and the parameters alone (00_scope.md R17). -/

namespace Sys2Proof.Machine

/-- The outcomes `a` at state `s` and `b` at state `t` show one and the same response and leave all else of their own state. -/
def SameAnswer (s t : State) (a b : Result) : Prop :=
  ∃ r : Response, a = .next { s with response := some r } ∧ b = .next { t with response := some r }

namespace SameAnswer

variable {s t : State} {a b a' b' : Result}

/-! ## The operations a command ends with -/

theorem ret (results : Results) : SameAnswer s t (ret s results) (ret t results) :=
  ⟨_, ret_eq s results, ret_eq t results⟩

theorem raise (status : Status) (info : Nat) : SameAnswer s t (raise s status info) (raise t status info) :=
  ⟨_, raise_eq s status info, raise_eq t status info⟩

/-- A check on the ports and the parameters takes the same branch at both states. -/
theorem ite {c : Prop} [Decidable c] (hthen : SameAnswer s t a b) (helse : SameAnswer s t a' b') :
    SameAnswer s t (if c then a else a') (if c then b else b') := by
  split
  · exact hthen
  · exact helse

/-- The halted check comes out the same at both states. -/
theorem unlessHalted (hh : isHalted s = isHalted t) (hbody : SameAnswer s t a b) :
    SameAnswer s t (unlessHalted s a) (unlessHalted t b) := by
  unfold Machine.unlessHalted
  rw [hh]
  exact ite (raise _ _) hbody

/-! ## The commands: those that read no parameter, then those that read EXT_PHYS -/

theorem execVsid (hh : isHalted s = isHalted t) (ctx : Word) (seg : BitVec 4) :
    SameAnswer s t (execVsid ctx seg s) (execVsid ctx seg t) :=
  unlessHalted hh (ret _)

theorem execVsidea (hh : isHalted s = isHalted t) (ctx ea : Word) :
    SameAnswer s t (execVsidea ctx ea s) (execVsidea ctx ea t) :=
  unlessHalted hh (ret _)

theorem execPpchk (hh : isHalted s = isHalted t) (pp : BitVec 2) (key : BitVec 1) :
    SameAnswer s t (execPpchk pp key s) (execPpchk pp key t) :=
  unlessHalted hh (ret _)

theorem execBatsize (hh : isHalted s = isHalted t) (base top : PhysAddr) :
    SameAnswer s t (execBatsize base top s) (execBatsize base top t) :=
  unlessHalted hh (ite (raise _ _) (ite (raise _ _) (ret _)))

theorem execBatuenc (hh : isHalted s = isHalted t) (ea code : Word) (vs vp : BitVec 1) :
    SameAnswer s t (execBatuenc ea code vs vp s) (execBatuenc ea code vs vp t) :=
  unlessHalted hh (ite (raise _ _) (ite (raise _ _) (ret _)))

theorem execPteenc (hp : s.params = t.params) (hh : isHalted s = isHalted t) (ports : PtePorts) :
    SameAnswer s t (execPteenc ports s) (execPteenc ports t) := by
  unfold Machine.execPteenc
  rw [hp]
  refine unlessHalted hh ?_
  cases firstTooWide 0 (pteChecks ports) with
  | some k => exact raise _ _
  | none => exact ite (raise _ _) (ret _)

theorem execPtedec (hp : s.params = t.params) (hh : isHalted s = isHalted t) (w0 w1 : Word) :
    SameAnswer s t (execPtedec w0 w1 s) (execPtedec w0 w1 t) := by
  unfold Machine.execPtedec
  rw [hp]
  exact unlessHalted hh (ite (raise _ _) (ite (raise _ _) (ret _)))

theorem execBatpenc (hp : s.params = t.params) (hh : isHalted s = isHalted t) (pa : PhysAddr) :
    SameAnswer s t (execBatpenc pa s) (execBatpenc pa t) := by
  unfold Machine.execBatpenc
  rw [hp]
  refine unlessHalted hh ?_
  cases encodeBatPa t.params.extPhys pa with
  | error status => exact raise _ _
  | ok bits => exact ret _

theorem execBatpdec (hp : s.params = t.params) (hh : isHalted s = isHalted t) (bits : Word) :
    SameAnswer s t (execBatpdec bits s) (execBatpdec bits t) := by
  unfold Machine.execBatpdec
  rw [hp]
  exact unlessHalted hh (ite (ite (ret _) (raise _ _)) (ret _))

theorem execBatlenc (hp : s.params = t.params) (hh : isHalted s = isHalted t) (pa : PhysAddr) (wimg pp : Word) :
    SameAnswer s t (execBatlenc pa wimg pp s) (execBatlenc pa wimg pp t) := by
  unfold Machine.execBatlenc
  rw [hp]
  refine unlessHalted hh (ite (raise _ _) ?_)
  cases encodeBatPa t.params.extPhys pa with
  | error status => exact raise _ _
  | ok field => exact ite (raise _ _) (ite (raise _ _) (ret _))

end SameAnswer

/-- Settles O36: each pure command ends only by `ret` or `raise`, after checks that its ports and the parameters decide. -/
theorem pureCommandsTouchNoState : Obligations.PureCommandsTouchNoState := by
  unfold Obligations.PureCommandsTouchNoState
  intro i hpure s t hp hh
  cases i with
  | vsid ctx seg => exact SameAnswer.execVsid hh ctx seg
  | vsidea ctx ea => exact SameAnswer.execVsidea hh ctx ea
  | pteenc ports => exact SameAnswer.execPteenc hp hh ports
  | ptedec w0 w1 => exact SameAnswer.execPtedec hp hh w0 w1
  | ppchk pp key => exact SameAnswer.execPpchk hh pp key
  | batsize base top => exact SameAnswer.execBatsize hh base top
  | batpenc pa => exact SameAnswer.execBatpenc hp hh pa
  | batpdec bits => exact SameAnswer.execBatpdec hp hh bits
  | batuenc ea code vs vp => exact SameAnswer.execBatuenc hh ea code vs vp
  | batlenc pa wimg pp => exact SameAnswer.execBatlenc hp hh pa wimg pp
  | batfree | batwr | batrd | srinst | srsync | srwr | srrd | uenter => nomatch hpure

end Sys2Proof.Machine
end

section
/-! SUPPORT. What any command can do to the state, said once, and the invariant of the block that follows from it. -/

namespace Sys2Proof.Machine

/-! ## The effect of a command -/

/-- Whether a command of a running block writes `sr_sync_pending` (10_state.md R30). -/
def touchesBarrier : Instr → Bool
  | .srinst _ | .srsync | .srwr _ _ => true
  | _ => false

/-- Everything the command `i` can leave behind at the state `s`, by how it ends: HALTED, a plain response, a sticky fault,
or one of the four writes. -/
inductive Effect (s : State) : Instr → State → Prop
  | halted {i : Instr} (hhalt : isHalted s = true) : Effect s i (respond s ⟨.halted, 0, none⟩)
  | answers {i : Instr} {r : Response} (hrun : isHalted s = false) (hi : touchesBarrier i = false)
      (hfit : responseOk r = true) (hplain : haltStatus r.status = false) : Effect s i (respond s r)
  | records {i : Instr} {reason : FaultReason} {info : Nat} (hrun : isHalted s = false) (hi : touchesBarrier i = false)
      (hfit : infoFits (stickyStatus reason) info = true) (hbarrier : reason = .hazard → s.syncPending = true) :
      Effect s i (respond (recordFault s reason) ⟨stickyStatus reason, info, none⟩)
  | batwr {k : BitVec 4} {upper lower : Word} (hrun : isHalted s = false) (hk : k.toNat < s.params.nBat) :
      Effect s (.batwr k upper lower) (respond (writeBat s k ⟨upper, lower⟩) ⟨.ok, 0, some .empty⟩)
  | srinst {seed : Word} {results : Results} (hrun : isHalted s = false) :
      Effect s (.srinst seed)
        (respond (noteSrWrite (writeSrs s (installLog s.params seed))) ⟨.ok, 0, some results⟩)
  | srsync (hrun : isHalted s = false) : Effect s .srsync (respond (setSync s false) ⟨.ok, 0, some .empty⟩)
  | srwr {n : BitVec 4} {v : Word} (hrun : isHalted s = false) :
      Effect s (.srwr n v) (respond (noteSrWrite (writeSr s n v)) ⟨.ok, 0, some .empty⟩)

/-- The outcome `a` of the command `i` at the state `s` is a next state that has one of those effects. -/
def Effects (s : State) (i : Instr) (a : Result) : Prop := ∃ t, a = .next t ∧ Effect s i t

/-- The first field that is too wide is one of the list. -/
theorem firstTooWide_lt {k j : Nat} {fields : List (Word × Nat)} (h : firstTooWide k fields = some j) :
    j < k + fields.length := by
  induction fields generalizing k with
  | nil => cases h
  | cons f rest ih =>
    simp only [firstTooWide] at h
    split at h
    · simp_all
    · have := ih h
      simp only [List.length_cons]
      omega

/-- A physical address is refused for its range or for its alignment (42_bat.md R140). -/
theorem encodeBatPa_error {extPhys : Bool} {pa : PhysAddr} {status : Status}
    (h : encodeBatPa extPhys pa = .error status) : status = .encRange ∨ status = .encAlign := by
  unfold encodeBatPa at h
  split at h
  · exact .inl (by simpa using h.symm)
  · split at h
    · exact .inr (by simpa using h.symm)
    · cases h

namespace Effects

variable {s : State} {i : Instr} {a b : Result}

/-! ### The operations a command ends with -/

theorem ret (hrun : isHalted s = false) (hi : touchesBarrier i = false) (results : Results) :
    Effects s i (ret s results) :=
  ⟨_, rfl, .answers hrun hi rfl rfl⟩

theorem raise (hrun : isHalted s = false) (hi : touchesBarrier i = false) {status : Status} {info : Nat}
    (hfit : responseOk ⟨status, info, none⟩ = true) (hplain : haltStatus status = false) :
    Effects s i (raise s status info) :=
  ⟨_, rfl, .answers hrun hi hfit hplain⟩

/-- An unwritten register of either kind has an info below 32 (60_exceptions.md R204). -/
theorem faultUninit (hrun : isHalted s = false) (hi : touchesBarrier i = false) {info : Nat} (h : info < 32) :
    Effects s i (takeFault s .uninit info) :=
  ⟨_, rfl, .records hrun hi (by simpa [infoFits, stickyStatus] using h) nofun⟩

theorem ite {c : Prop} [Decidable c] (hthen : c → Effects s i a) (helse : ¬ c → Effects s i b) :
    Effects s i (if c then a else b) := by
  split
  · exact hthen ‹_›
  · exact helse ‹_›

theorem unlessHalted (hbody : isHalted s = false → Effects s i a) : Effects s i (unlessHalted s a) := by
  rcases unlessHalted_cases s a with ⟨hhalt, heq⟩ | ⟨hrun, heq⟩
  · exact ⟨_, heq, .halted hhalt⟩
  · rw [heq]
    exact hbody hrun

theorem checkBatIndex (hrun : isHalted s = false) (hi : touchesBarrier i = false) {k : BitVec 4}
    (hbody : k.toNat < s.params.nBat → Effects s i a) : Effects s i (checkBatIndex s k a) :=
  ite (fun _ => raise hrun hi (by simpa [responseOk, infoFits] using k.isLt) rfl) fun h => hbody (by omega)

theorem withBat (hrun : isHalted s = false) (hi : touchesBarrier i = false) {k : BitVec 4} {f : BatPair → Result}
    (hbody : ∀ p, Effects s i (f p)) : Effects s i (withBat s k f) := by
  unfold Machine.withBat
  cases readBat s k with
  | none => exact faultUninit hrun hi (by omega)
  | some p => exact hbody p

theorem withSr (hrun : isHalted s = false) (hi : touchesBarrier i = false) {n : BitVec 4} {f : Word → Result}
    (hbody : ∀ v, Effects s i (f v)) : Effects s i (withSr s n f) := by
  unfold Machine.withSr
  cases readSr s n with
  | none => exact faultUninit hrun hi (by omega)
  | some v => exact hbody v

theorem scanBats (hrun : isHalted s = false) (hi : touchesBarrier i = false) (is : List (BitVec 4)) :
    Effects s i (scanBats s is) := by
  induction is with
  | nil => exact ret hrun hi _
  | cons k rest ih => exact withBat hrun hi fun p => ite (fun _ => ret hrun hi _) fun _ => ih

/-! ### The commands that check more than their own ports -/

theorem execPteenc (ports : PtePorts) : Effects s (.pteenc ports) (execPteenc ports s) := by
  refine unlessHalted fun hrun => ?_
  cases h : firstTooWide 0 (pteChecks ports) with
  | some k =>
    have hk : k < 13 := by simpa [pteChecks] using firstTooWide_lt h
    exact raise hrun rfl (by simp [responseOk, infoFits]; omega) rfl
  | none => exact ite (fun _ => raise hrun rfl rfl rfl) fun _ => ret hrun rfl _

theorem execBatpenc (pa : PhysAddr) : Effects s (.batpenc pa) (execBatpenc pa s) := by
  refine unlessHalted fun hrun => ?_
  cases h : encodeBatPa s.params.extPhys pa with
  | error status => rcases encodeBatPa_error h with rfl | rfl <;> exact raise hrun rfl rfl rfl
  | ok bits => exact ret hrun rfl _

theorem execBatpdec (bits : Word) : Effects s (.batpdec bits) (execBatpdec bits s) :=
  unlessHalted fun hrun =>
    ite (fun _ => ite (fun _ => ret hrun rfl _) fun _ =>
      raise hrun rfl (by simpa [responseOk, infoFits] using bits.isLt) rfl) fun _ => ret hrun rfl _

theorem execBatlenc (pa : PhysAddr) (wimg pp : Word) : Effects s (.batlenc pa wimg pp) (execBatlenc pa wimg pp s) := by
  refine unlessHalted fun hrun => ite (fun _ => raise hrun rfl rfl rfl) fun _ => ?_
  cases h : encodeBatPa s.params.extPhys pa with
  | error status => rcases encodeBatPa_error h with rfl | rfl <;> exact raise hrun rfl rfl rfl
  | ok field =>
    exact ite (fun _ => raise hrun rfl rfl rfl) fun _ => ite (fun _ => raise hrun rfl rfl rfl) fun _ => ret hrun rfl _

theorem execUenter : Effects s .uenter (execUenter s) :=
  unlessHalted fun hrun => ite (fun hpending => ⟨_, rfl, .records hrun rfl rfl fun _ => hpending⟩) fun _ => ret hrun rfl _

end Effects

/-- Every command answers a next state that has one of the effects. -/
theorem exec_effects (i : Instr) (s : State) : Effects s i (exec i s) := by
  cases i with
  | vsid | vsidea | ppchk => exact .unlessHalted fun hrun => .ret hrun rfl _
  | pteenc ports => exact .execPteenc ports
  | ptedec | batsize | batuenc =>
    exact .unlessHalted fun hrun =>
      .ite (fun _ => .raise hrun rfl rfl rfl) fun _ => .ite (fun _ => .raise hrun rfl rfl rfl) fun _ => .ret hrun rfl _
  | batfree => exact .unlessHalted fun hrun => .scanBats hrun rfl _
  | batpenc pa => exact .execBatpenc pa
  | batpdec bits => exact .execBatpdec bits
  | batlenc pa wimg pp => exact .execBatlenc pa wimg pp
  | batwr => exact .unlessHalted fun hrun => .checkBatIndex hrun rfl fun hk => ⟨_, rfl, .batwr hrun hk⟩
  | batrd => exact .unlessHalted fun hrun => .checkBatIndex hrun rfl fun _ => .withBat hrun rfl fun _ => .ret hrun rfl _
  | srinst => exact .unlessHalted fun hrun => ⟨_, rfl, .srinst hrun⟩
  | srsync => exact .unlessHalted fun hrun => ⟨_, rfl, .srsync hrun⟩
  | srwr => exact .unlessHalted fun hrun => ⟨_, rfl, .srwr hrun⟩
  | srrd => exact .unlessHalted fun hrun => .withSr hrun rfl fun _ => .ret hrun rfl _
  | uenter => exact .execUenter

/-- What a command leaves has one of the effects. -/
theorem effect_of_exec {i : Instr} {s t : State} (h : exec i s = .next t) : Effect s i t := by
  obtain ⟨t', heq, heff⟩ := exec_effects i s
  obtain rfl : t = t' := by simpa [h] using heq
  exact heff

/-! ## The invariant -/

namespace Consistent

variable {s t : State}

/-- A block that has recorded no fault is consistent when its BAT pairs, its barrier flag and its response are. -/
theorem of_running (hrun : isHalted t = false) (hbat : ∀ i : BitVec 4, t.params.nBat ≤ i.toNat → readBat t i = none)
    (hsync : t.params.syncRequired = false → t.syncPending = false)
    (hresp : ∀ r, t.response = some r → responseOk r = true ∧ haltStatus r.status = false) : Consistent t where
  absentBats := hbat
  noBarrierNeeded := hsync
  responseFits r h := (hresp r h).1
  haltShows := by
    unfold showsHalt
    cases h : t.response with
    | none => exact hrun
    | some r => exact hrun.trans (hresp r h).2.symm
  hazardPending h := by simp [isHalted, h] at hrun
  oneFault := by simp_all [isHalted]

theorem withInbox (h : Consistent s) (events : List HostEvent) : Consistent (withInbox s events) :=
  ⟨h.absentBats, h.noBarrierNeeded, h.responseFits, h.haltShows, h.hazardPending, h.oneFault⟩

theorem resetBlock (s : State) : Consistent (resetBlock s) :=
  of_running rfl (fun i _ => by simp [readBat]) (fun _ => rfl) nofun

/-- The response HALTED of a halted block. -/
theorem respond_halted (h : Consistent s) (hhalt : isHalted s = true) : Consistent (respond s ⟨.halted, 0, none⟩) where
  absentBats := h.absentBats
  noBarrierNeeded := h.noBarrierNeeded
  responseFits := by rintro _ ⟨⟩; rfl
  haltShows := hhalt
  hazardPending := h.hazardPending
  oneFault := h.oneFault

/-- A plain response of a running block. -/
theorem respond_running (h : Consistent s) (hrun : isHalted s = false) {r : Response} (hfit : responseOk r = true)
    (hplain : haltStatus r.status = false) : Consistent (respond s r) :=
  of_running hrun h.absentBats h.noBarrierNeeded (by rintro _ ⟨⟩; exact ⟨hfit, hplain⟩)

/-- The first sticky fault of a running block. -/
theorem record_fault (h : Consistent s) (hrun : isHalted s = false) {reason : FaultReason} {info : Nat}
    (hfit : infoFits (stickyStatus reason) info = true) (hbarrier : reason = .hazard → s.syncPending = true) :
    Consistent (respond (recordFault s reason) ⟨stickyStatus reason, info, none⟩) where
  absentBats := h.absentBats
  noBarrierNeeded := h.noBarrierNeeded
  responseFits := by
    rintro _ ⟨⟩
    cases reason <;> simpa [responseOk, stickyStatus] using hfit
  haltShows := by cases reason <;> simp [showsHalt, haltStatus, stickyStatus]
  hazardPending := by cases reason <;> simp_all [isHalted, addFault]
  oneFault := by cases reason <;> simp_all [isHalted, addFault]

theorem writeBat (h : Consistent s) (hrun : isHalted s = false) {k : BitVec 4} (hk : k.toNat < s.params.nBat)
    (p : BatPair) : Consistent (respond (writeBat s k p) ⟨.ok, 0, some .empty⟩) := by
  refine of_running hrun (fun i hi => ?_) h.noBarrierNeeded (by rintro _ ⟨⟩; exact ⟨rfl, rfl⟩)
  have hne : k ≠ i := fun hki => by
    subst hki
    exact absurd hk (Nat.not_lt.mpr hi)
  exact (readBat_writeBat s k i p).trans (by rw [if_neg hne, h.absentBats i hi])

theorem writeSr (h : Consistent s) (n : BitVec 4) (v : Word) : Consistent (writeSr s n v) :=
  ⟨h.absentBats, h.noBarrierNeeded, h.responseFits, h.haltShows, h.hazardPending, h.oneFault⟩

theorem writeSrs (h : Consistent s) (log : List (BitVec 4 × Word)) : Consistent (writeSrs s log) := by
  induction log generalizing s with
  | nil => exact h
  | cons e rest ih => exact ih (h.writeSr e.1 e.2)

/-- A barrier becomes pending only where SYNC_REQUIRED is true. -/
theorem noteSrWrite (h : Consistent s) (hrun : isHalted s = false) (results : Results) :
    Consistent (respond (noteSrWrite s) ⟨.ok, 0, some results⟩) := by
  rw [noteSrWrite_eq]
  exact of_running hrun h.absentBats (fun hsync => by simp_all [h.noBarrierNeeded hsync])
    (by rintro _ ⟨⟩; exact ⟨rfl, rfl⟩)

theorem clearBarrier (h : Consistent s) (hrun : isHalted s = false) (results : Results) :
    Consistent (respond (setSync s false) ⟨.ok, 0, some results⟩) :=
  of_running hrun h.absentBats (fun _ => rfl) (by rintro _ ⟨⟩; exact ⟨rfl, rfl⟩)

/-- Every effect of a command keeps the invariant. -/
theorem effect {i : Instr} (h : Consistent s) (heff : Effect s i t) : Consistent t := by
  cases heff with
  | halted hhalt => exact h.respond_halted hhalt
  | answers hrun _ hfit hplain => exact h.respond_running hrun hfit hplain
  | records hrun _ hfit hbarrier => exact h.record_fault hrun hfit hbarrier
  | batwr hrun hk => exact h.writeBat hrun hk _
  | srinst hrun => exact (h.writeSrs _).noteSrWrite (by simpa [isHalted] using hrun) _
  | srsync hrun => exact h.clearBarrier hrun _
  | srwr hrun => exact (h.writeSr _ _).noteSrWrite hrun _

/-- An illegal word answers ILLEGAL_CMD, or HALTED (30_encoding.md R55, 60_exceptions.md R202). -/
theorem illegal (h : Consistent s) (word : Word)
    (ht : unlessHalted s (raise s .illegalCmd word.toNat) = .next t) : Consistent t := by
  rcases unlessHalted_cases s (raise s .illegalCmd word.toNat) with ⟨hhalt, heq⟩ | ⟨hrun, heq⟩
  · obtain rfl : respond s _ = t := Host.Outcome.next.inj (heq.symm.trans ht)
    exact h.respond_halted hhalt
  · obtain rfl : respond s _ = t := Host.Outcome.next.inj (heq.symm.trans ht)
    exact h.respond_running hrun (by simpa [responseOk, infoFits] using word.isLt) rfl

end Consistent

/-- Settles O44: by the kinds of a step, and for an executed command by the effects it can have. -/
theorem stepKeepsConsistent : Obligations.StepKeepsConsistent := by
  unfold Obligations.StepKeepsConsistent
  intro s t h hstep
  rcases step_cases hstep with ⟨-, rfl⟩ | ⟨rest, -, rfl⟩ | ⟨c, rest, i, -, -, hexec⟩ | ⟨c, rest, e, -, -, -, hill⟩
  · exact h
  · exact .resetBlock _
  · exact (h.withInbox rest).effect (effect_of_exec hexec)
  · exact (h.withInbox rest).illegal c.word hill

end Sys2Proof.Machine
end

section
/-! SUPPORT. Which commands write a part of the state, and that a command's outcome does not depend on a part it does not
read: one argument for segment registers, BAT pairs, the barrier flag and the response port. -/

namespace Sys2Proof.Machine

/-! ## Two runs that differ in one part of the state -/

/-- The parts of the state that 10_state.md R24, R29, R30 and R21 give readers, or none. -/
inductive Part where
  | segments
  | bats
  | barrier
  | responsePort

/-- The part whose contents a command reads, if any. -/
def partRead : Instr → Option Part
  | .srrd _ => some .segments
  | .batfree | .batrd _ => some .bats
  | .uenter => some .barrier
  | _ => none

theorem partRead_segments {i : Instr} (h : partRead i = some .segments) : ∃ n, i = .srrd n := by
  cases i <;> simp_all [partRead]

theorem partRead_bats {i : Instr} (h : partRead i = some .bats) : i = .batfree ∨ ∃ k, i = .batrd k := by
  cases i <;> simp_all [partRead]

theorem partRead_barrier {i : Instr} (h : partRead i = some .barrier) : i = .uenter := by
  cases i <;> simp_all [partRead]

theorem partRead_ne_responsePort (i : Instr) : partRead i ≠ some .responsePort := by
  cases i <;> simp [partRead]

/-- Two states that are the same but for the part `c`. -/
structure AgreeBut (c : Part) (s t : State) : Prop where
  params : s.params = t.params
  sr : c ≠ .segments → s.sr = t.sr
  bat : c ≠ .bats → s.bat = t.bat
  syncPending : c ≠ .barrier → s.syncPending = t.syncPending
  faults : s.faults = t.faults
  inbox : s.inbox = t.inbox
  response : c ≠ .responsePort → s.response = t.response

namespace AgreeBut

variable {c : Part} {s t : State}

theorem isHalted (h : AgreeBut c s t) : isHalted s = isHalted t := by
  simp only [Machine.isHalted, h.faults]

theorem respond (h : AgreeBut c s t) (r : Response) : AgreeBut c (respond s r) (respond t r) :=
  ⟨h.params, h.sr, h.bat, h.syncPending, h.faults, h.inbox, fun _ => rfl⟩

theorem recordFault (h : AgreeBut c s t) (reason : FaultReason) :
    AgreeBut c (recordFault s reason) (recordFault t reason) :=
  ⟨h.params, h.sr, h.bat, h.syncPending, congrArg (addFault · reason) h.faults, h.inbox, h.response⟩

theorem setSync (h : AgreeBut c s t) (b : Bool) : AgreeBut c (setSync s b) (setSync t b) :=
  ⟨h.params, h.sr, h.bat, fun _ => rfl, h.faults, h.inbox, h.response⟩

theorem noteSrWrite (h : AgreeBut c s t) : AgreeBut c (noteSrWrite s) (noteSrWrite t) := by
  unfold Machine.noteSrWrite
  rw [h.params]
  split
  · exact h.setSync true
  · exact h

theorem writeSr (h : AgreeBut c s t) (n : BitVec 4) (v : Word) : AgreeBut c (writeSr s n v) (writeSr t n v) :=
  ⟨h.params, fun hc => congrArg (·.set n.toNat (some v)) (h.sr hc), h.bat, h.syncPending, h.faults, h.inbox, h.response⟩

theorem writeSrs (h : AgreeBut c s t) (log : List (BitVec 4 × Word)) :
    AgreeBut c (writeSrs s log) (writeSrs t log) := by
  induction log generalizing s t with
  | nil => exact h
  | cons e rest ih => exact ih (h.writeSr e.1 e.2)

theorem writeBat (h : AgreeBut c s t) (k : BitVec 4) (p : BatPair) : AgreeBut c (writeBat s k p) (writeBat t k p) :=
  ⟨h.params, h.sr, fun hc => congrArg (·.set k.toNat (some p)) (h.bat hc), h.syncPending, h.faults, h.inbox, h.response⟩

/-! ### The states that agree but for one part are the updates of that part -/

theorem update_sr (s : State) (sr : Vector (Option Word) 16) : AgreeBut .segments s { s with sr := sr } :=
  ⟨rfl, fun hc => absurd rfl hc, fun _ => rfl, fun _ => rfl, rfl, rfl, fun _ => rfl⟩

theorem update_bat (s : State) (bat : Vector (Option BatPair) 16) : AgreeBut .bats s { s with bat := bat } :=
  ⟨rfl, fun _ => rfl, fun hc => absurd rfl hc, fun _ => rfl, rfl, rfl, fun _ => rfl⟩

theorem update_syncPending (s : State) (b : Bool) : AgreeBut .barrier s { s with syncPending := b } :=
  ⟨rfl, fun _ => rfl, fun _ => rfl, fun hc => absurd rfl hc, rfl, rfl, fun _ => rfl⟩

theorem update_response (s : State) (r : Option Response) : AgreeBut .responsePort s { s with response := r } :=
  ⟨rfl, fun _ => rfl, fun _ => rfl, fun _ => rfl, rfl, rfl, fun hc => absurd rfl hc⟩

theorem eq_update_sr (h : AgreeBut .segments s t) : t = { s with sr := t.sr } := by
  simp [h.params, h.bat, h.syncPending, h.faults, h.inbox, h.response]

theorem eq_update_bat (h : AgreeBut .bats s t) : t = { s with bat := t.bat } := by
  simp [h.params, h.sr, h.syncPending, h.faults, h.inbox, h.response]

theorem eq_update_syncPending (h : AgreeBut .barrier s t) : t = { s with syncPending := t.syncPending } := by
  simp [h.params, h.sr, h.bat, h.faults, h.inbox, h.response]

theorem eq_update_response (h : AgreeBut .responsePort s t) : t = { s with response := t.response } := by
  simp [h.params, h.sr, h.bat, h.syncPending, h.faults, h.inbox]

end AgreeBut

/-- Next states that are the same but for the part `c`, and show one and the same response in any case. -/
def SameBut (c : Part) (a b : Result) : Prop :=
  ∃ s t, a = .next s ∧ b = .next t ∧ AgreeBut c s t ∧ s.response = t.response

namespace SameBut

variable {c : Part} {s t : State} {a b a' b' : Result}

/-! ### The operations a command ends with -/

theorem of_sameAnswer (h : AgreeBut c s t) (hab : SameAnswer s t a b) : SameBut c a b := by
  obtain ⟨r, ha, hb⟩ := hab
  exact ⟨_, _, ha, hb, h.respond r, rfl⟩

theorem ret (h : AgreeBut c s t) (results : Results) : SameBut c (ret s results) (ret t results) :=
  of_sameAnswer h (.ret results)

theorem raise (h : AgreeBut c s t) (status : Status) (info : Nat) : SameBut c (raise s status info) (raise t status info) :=
  of_sameAnswer h (.raise status info)

theorem takeFault (h : AgreeBut c s t) (reason : FaultReason) (info : Nat) :
    SameBut c (takeFault s reason info) (takeFault t reason info) :=
  ⟨_, _, rfl, rfl, (h.recordFault reason).respond _, rfl⟩

theorem ite {p : Prop} [Decidable p] (hthen : SameBut c a b) (helse : SameBut c a' b') :
    SameBut c (if p then a else a') (if p then b else b') := by
  split
  · exact hthen
  · exact helse

theorem unlessHalted (h : AgreeBut c s t) (hbody : SameBut c a b) : SameBut c (unlessHalted s a) (unlessHalted t b) := by
  unfold Machine.unlessHalted
  rw [h.isHalted]
  exact ite (raise h _ _) hbody

theorem checkBatIndex (h : AgreeBut c s t) (k : BitVec 4) (hbody : SameBut c a b) :
    SameBut c (checkBatIndex s k a) (checkBatIndex t k b) := by
  unfold Machine.checkBatIndex
  rw [h.params]
  exact ite (raise h _ _) hbody

theorem withBat (h : AgreeBut c s t) (hc : c ≠ .bats) (k : BitVec 4) {f g : BatPair → Result}
    (hbody : ∀ p, SameBut c (f p) (g p)) : SameBut c (withBat s k f) (withBat t k g) := by
  unfold Machine.withBat
  rw [readBat_congr (h.bat hc)]
  cases readBat t k with
  | none => exact takeFault h _ _
  | some p => exact hbody p

theorem withSr (h : AgreeBut c s t) (hc : c ≠ .segments) (n : BitVec 4) {f g : Word → Result}
    (hbody : ∀ v, SameBut c (f v) (g v)) : SameBut c (withSr s n f) (withSr t n g) := by
  unfold Machine.withSr
  rw [readSr_congr (h.sr hc)]
  cases readSr t n with
  | none => exact takeFault h _ _
  | some v => exact hbody v

theorem scanBats (h : AgreeBut c s t) (hc : c ≠ .bats) (is : List (BitVec 4)) :
    SameBut c (scanBats s is) (scanBats t is) := by
  induction is with
  | nil => exact ret h _
  | cons k rest ih => exact withBat h hc k fun p => ite (ret h _) ih

/-! ### The commands that read a part of the state, or write one after looking at the parameters -/

theorem execBatfree (h : AgreeBut c s t) (hc : c ≠ .bats) : SameBut c (execBatfree s) (execBatfree t) := by
  unfold Machine.execBatfree
  rw [h.params]
  exact unlessHalted h (scanBats h hc _)

theorem execSrinst (h : AgreeBut c s t) (seed : Word) : SameBut c (execSrinst seed s) (execSrinst seed t) := by
  unfold Machine.execSrinst
  rw [h.params]
  exact unlessHalted h (ret (h.writeSrs _).noteSrWrite _)

theorem execUenter (h : AgreeBut c s t) (hc : c ≠ .barrier) : SameBut c (execUenter s) (execUenter t) := by
  unfold Machine.execUenter
  rw [h.syncPending hc]
  exact unlessHalted h (ite (takeFault h _ _) (ret h _))

end SameBut

/-- A command that does not read the part `c` does the same at states that differ in `c` alone. -/
theorem exec_sameBut {c : Part} {i : Instr} {s t : State} (h : AgreeBut c s t) (hc : partRead i ≠ some c) :
    SameBut c (exec i s) (exec i t) := by
  have hne : ∀ {d : Part}, partRead i = some d → c ≠ d := fun hd hcd => hc (hcd ▸ hd)
  cases i with
  | batfree => exact .execBatfree h (hne rfl)
  | batwr k => exact .unlessHalted h (.checkBatIndex h k (.ret (h.writeBat _ _) _))
  | batrd k => exact .unlessHalted h (.checkBatIndex h k (.withBat h (hne rfl) k fun _ => .ret h _))
  | srinst seed => exact .execSrinst h seed
  | srsync => exact .unlessHalted h (.ret (h.setSync false) _)
  | srwr n v => exact .unlessHalted h (.ret (h.writeSr n v).noteSrWrite _)
  | srrd n => exact .unlessHalted h (.withSr h (hne rfl) n fun _ => .ret h _)
  | uenter => exact .execUenter h (hne rfl)
  | vsid | vsidea | pteenc | ptedec | ppchk | batsize | batpenc | batpdec | batuenc | batlenc =>
    exact .of_sameAnswer h (pureCommandsTouchNoState _ rfl s t h.params h.isHalted)

/-! ## The writers of a part -/

/-- The segment registers after a command that changes one (10_state.md R24). -/
theorem Effect.sr_writer {i : Instr} {s t : State} {n : BitVec 4} (heff : Effect s i t) (hne : readSr t n ≠ readSr s n) :
    (∃ seed, i = .srinst seed ∧ n.toNat < s.params.numUserSegments) ∨ ∃ value, i = .srwr n value := by
  cases heff with
  | halted | answers | records | batwr | srsync => exact absurd rfl hne
  | @srinst seed =>
    have hread := readSr_installed s s.params seed n
    by_cases hn : n.toNat < s.params.numUserSegments
    · exact .inl ⟨seed, rfl, hn⟩
    · rw [if_neg hn] at hread
      exact absurd ((readSr_congr (noteSrWrite_sr _) n).trans hread) hne
  | @srwr m v =>
    have hread := readSr_writeSr s m n v
    by_cases hm : m = n
    · exact .inr ⟨v, by rw [hm]⟩
    · rw [if_neg hm] at hread
      exact absurd ((readSr_congr (noteSrWrite_sr _) n).trans hread) hne

/-- The BAT pairs after a command that changes one (10_state.md R29). -/
theorem Effect.bat_writer {i : Instr} {s t : State} {k : BitVec 4} (heff : Effect s i t) (hne : readBat t k ≠ readBat s k) :
    ∃ upper lower, i = .batwr k upper lower ∧ readBat t k = some ⟨upper, lower⟩ := by
  cases heff with
  | halted | answers | records | srsync => exact absurd rfl hne
  | srinst | srwr => exact absurd (readBat_congr (by simp) k) hne
  | @batwr j upper lower =>
    have hread := readBat_writeBat s j k ⟨upper, lower⟩
    by_cases hj : j = k
    · exact ⟨upper, lower, by rw [hj], hread.trans (if_pos hj)⟩
    · rw [if_neg hj] at hread
      exact absurd hread hne

/-! ## The statements -/

/-- Settles O37: the writers from the effects of a command, the reader by comparing two runs. -/
theorem segmentRegistersHaveTwoWritersAndOneReader : Obligations.SegmentRegistersHaveTwoWritersAndOneReader := by
  unfold Obligations.SegmentRegistersHaveTwoWritersAndOneReader
  refine ⟨fun i s t n h => (effect_of_exec h).sr_writer, fun i s sr hi => ?_⟩
  have hread : partRead i ≠ some .segments := fun h =>
    have ⟨n, hn⟩ := partRead_segments h
    hi n hn
  obtain ⟨t, u, ht, hu, hagree, -⟩ := exec_sameBut (AgreeBut.update_sr s sr) hread
  exact ⟨t, u, ht, hu, hagree.eq_update_sr⟩

/-- Settles O38: the writer from the effects of a command, the readers by comparing two runs. -/
theorem batPairsHaveOneWriterAndTwoReaders : Obligations.BatPairsHaveOneWriterAndTwoReaders := by
  unfold Obligations.BatPairsHaveOneWriterAndTwoReaders
  refine ⟨fun i s t k h => (effect_of_exec h).bat_writer, fun i s bat hfree hrd => ?_⟩
  have hread : partRead i ≠ some .bats := fun h => (partRead_bats h).elim hfree fun ⟨k, hk⟩ => hrd k hk
  obtain ⟨t, u, ht, hu, hagree, -⟩ := exec_sameBut (AgreeBut.update_bat s bat) hread
  exact ⟨t, u, ht, hu, hagree.eq_update_bat⟩

/-- Settles O39: the flag from the effects of a command, its reader by comparing two runs. -/
theorem barrierFlagChangesAsStated : Obligations.BarrierFlagChangesAsStated := by
  unfold Obligations.BarrierFlagChangesAsStated
  refine ⟨fun i s t h => ?_, fun i s b hi => ?_, fun s => rfl⟩
  · cases effect_of_exec h with
    | halted hhalt => rw [if_pos hhalt]; rfl
    | answers hrun hi | records hrun hi =>
      rw [hrun]
      cases i with
      | srinst | srsync | srwr => cases hi
      | _ => rfl
    | batwr hrun | srsync hrun => simp [hrun]
    | srinst hrun | srwr hrun => simp [hrun, Bool.or_comm]
  · obtain ⟨t, u, ht, hu, hagree, -⟩ := exec_sameBut (AgreeBut.update_syncPending s b) fun h => hi (partRead_barrier h)
    exact ⟨t, u, ht, hu, hagree.eq_update_syncPending⟩

/-- Settles O40: two runs that differ in the response port only end with one response, so in one state. -/
theorem noCommandReadsTheResponsePort : Obligations.NoCommandReadsTheResponsePort := by
  unfold Obligations.NoCommandReadsTheResponsePort
  intro i s r
  obtain ⟨t, u, ht, hu, hagree, hresp⟩ := exec_sameBut (AgreeBut.update_response s r) (partRead_ne_responsePort i)
  rw [ht, hu, hagree.eq_update_response, ← hresp]

end Sys2Proof.Machine
end

section
/-! SUPPORT. The fields of the BAT words that BATUENC and BATLENC compose: each word is the sum of its fields at their places. -/

namespace Sys2Proof.Machine

/-- The or of a multiple of 2^m and a number below 2^m is their sum. -/
theorem or_eq_add_of_aligned {a b : Nat} (m : Nat) (ha : a % 2 ^ m = 0) (hb : b < 2 ^ m) : a ||| b = a + b := by
  obtain ⟨q, rfl⟩ := Nat.dvd_of_mod_eq_zero ha
  exact (Nat.two_pow_add_eq_or_of_lt hb q).symm

/-- A field cut out of a word, as a number. -/
theorem toNat_field {w : Nat} (x : BitVec w) (start len : Nat) :
    (x.extractLsb' start len).toNat = x.toNat / 2 ^ start % 2 ^ len := by
  rw [BitVec.extractLsb'_toNat, Nat.shiftRight_eq_div_pow]

/-! ## The upper word (10_state.md R27) -/

/-- A legal code has eleven bits (42_bat.md R131). -/
theorem legalCode_lt {code : Nat} (h : legalCode code = true) : code < 2 ^ 11 := by
  simp only [legalCode, List.any_eq_true, List.mem_range, beq_iff_eq] at h
  obtain ⟨j, hj, rfl⟩ := h
  have : 2 ^ j ≤ 2 ^ 11 := Nat.pow_le_pow_right (by decide) (by omega)
  omega

/-- An address aligned to the size of a code is aligned to the smallest block, 2^17 (42_bat.md R131). -/
theorem aligned_of_codeSize {ea code : Nat} (h : ea % codeSize code = 0) : ea % 2 ^ 17 = 0 :=
  Nat.mod_eq_zero_of_dvd (dvd_trans (Dvd.intro_left _ rfl) (Nat.dvd_of_mod_eq_zero h))

/-- What BATUENC has checked when it answers a word, and the word (42_bat.md R142). -/
theorem batuenc_ok {ea code u : Word} {vs vp : BitVec 1} {s : State} (hrun : isHalted s = false)
    (h : exec (.batuenc ea code vs vp) s = answerOk s (.batUpper u)) :
    legalCode code.toNat = true ∧ ea.toNat % codeSize code.toNat = 0 ∧ u = upperWord ea code vs vp := by
  simp only [exec, execBatuenc, unlessHalted_running hrun] at h
  split at h
  · simp [raise_eq, answerOk] at h
  · split at h
    · simp [raise_eq, answerOk] at h
    · simp_all [ret_eq, answerOk]

theorem upperWord_toNat {ea code : Word} (vs vp : BitVec 1) (hea : ea.toNat % 2 ^ 17 = 0) (hcode : code.toNat < 2 ^ 11) :
    (upperWord ea code vs vp).toNat = ea.toNat + code.toNat * 4 + vs.toNat * 2 + vp.toNat := by
  have hshift : code.toNat <<< 2 % 2 ^ 32 = code.toNat * 4 := by rw [Nat.shiftLeft_eq]; omega
  have hvs : (vs.toNat % 2 ^ 32) <<< 1 % 2 ^ 32 = vs.toNat * 2 := by rw [Nat.shiftLeft_eq]; omega
  have hvp : vp.toNat % 2 ^ 32 = vp.toNat := by omega
  simp only [upperWord, BitVec.toNat_or, BitVec.toNat_shiftLeft, BitVec.toNat_setWidth, hshift, hvs, hvp]
  rw [or_eq_add_of_aligned 17 hea (by omega), or_eq_add_of_aligned (b := vs.toNat * 2) 2 (by omega) (by omega),
    or_eq_add_of_aligned 1 (by omega) (by omega)]

/-- Settles O16: the word is the sum of its fields at their places, so dividing it cuts each of them out. -/
theorem upperWordHoldsItsFields : Obligations.UpperWordHoldsItsFields := by
  unfold Obligations.UpperWordHoldsItsFields
  intro ea code vs vp s u hrun h
  obtain ⟨hlegal, haligned, rfl⟩ := batuenc_ok hrun h
  have hea := aligned_of_codeSize haligned
  have hcode := legalCode_lt hlegal
  have hu := upperWord_toNat vs vp hea hcode
  refine ⟨?_, BitVec.eq_of_toNat_eq ?_, ?_, BitVec.eq_of_toNat_eq ?_, BitVec.eq_of_toNat_eq ?_⟩
  · rw [upperBepi, toNat_field, hu]; omega
  · rw [upperRsv, toNat_field, hu]; change _ = 0; omega
  · rw [upperBl, toNat_field, hu]; omega
  · rw [upperVs, toNat_field, hu]; omega
  · rw [upperVp, toNat_field, hu]; omega

/-! ## The lower word (10_state.md R28) -/

/-- An address BATPENC accepts without EXT_PHYS, and its encoding (42_bat.md R140). -/
theorem encodeBatPa_ok {pa : PhysAddr} {field : Word} (h : encodeBatPa false pa = .ok field) :
    pa.toNat < 2 ^ 32 ∧ pa.toNat % 2 ^ 17 = 0 ∧ field.toNat = pa.toNat := by
  simp only [encodeBatPa, paLimit, Bool.false_eq_true, if_false] at h
  split at h
  · cases h
  · split at h
    · cases h
    · obtain rfl : enc32 pa = field := Except.ok.inj h
      refine ⟨by omega, by omega, ?_⟩
      rw [enc32, BitVec.toNat_setWidth]
      omega

/-- What BATLENC has checked when it answers a word, and the word (42_bat.md R143). -/
theorem batlenc_ok {pa : PhysAddr} {wimg pp l : Word} {s : State} (hrun : isHalted s = false)
    (h : exec (.batlenc pa wimg pp) s = answerOk s (.batLower l)) :
    s.params.extPhys = false ∧ wimg.toNat < 16 ∧ pp.toNat < 4 ∧
      ∃ field, encodeBatPa false pa = .ok field ∧ l = lowerWord field wimg pp := by
  simp only [exec, execBatlenc, unlessHalted_running hrun] at h
  cases hext : s.params.extPhys with
  | true => simp [hext, raise_eq, answerOk] at h
  | false =>
    simp only [hext, Bool.false_eq_true, if_false] at h
    cases hpa : encodeBatPa false pa with
    | error status => simp [hpa, raise_eq, answerOk] at h
    | ok field =>
      simp only [hpa] at h
      split at h
      · simp [raise_eq, answerOk] at h
      · split at h
        · simp [raise_eq, answerOk] at h
        · refine ⟨rfl, by omega, by omega, field, rfl, ?_⟩
          simpa [ret_eq, answerOk, eq_comm] using h

theorem lowerWord_toNat {field wimg pp : Word} (hfield : field.toNat % 2 ^ 17 = 0) (hwimg : wimg.toNat < 16)
    (hpp : pp.toNat < 4) : (lowerWord field wimg pp).toNat = field.toNat + wimg.toNat * 8 + pp.toNat := by
  have hshift : wimg.toNat <<< 3 % 2 ^ 32 = wimg.toNat * 8 := by rw [Nat.shiftLeft_eq]; omega
  simp only [lowerWord, BitVec.toNat_or, BitVec.toNat_shiftLeft, hshift]
  rw [or_eq_add_of_aligned 17 hfield (by omega), or_eq_add_of_aligned 3 (by omega) (by omega)]

/-- `dec32` drops the low 17 bits (42_bat.md R138). -/
theorem dec32_toNat (bits : Word) : (dec32 bits).toNat = bits.toNat / 2 ^ 17 * 2 ^ 17 := by
  have hmask : bits &&& (0xFFFE0000 : Word) = bits >>> 17 <<< 17 := by
    have hbit : ∀ k < 32, (0xFFFE0000 : Word).getLsbD k = !decide (k < 17) := by decide
    refine BitVec.eq_of_getLsbD_eq fun k hk => ?_
    rw [BitVec.getLsbD_and, hbit k hk, BitVec.getLsbD_shiftLeft, BitVec.getLsbD_ushiftRight]
    by_cases h17 : k < 17
    · simp [h17]
    · simp [h17, hk, show 17 + (k - 17) = k by omega]
  rw [dec32, hmask, BitVec.toNat_setWidth, BitVec.toNat_shiftLeft, BitVec.toNat_ushiftRight, Nat.shiftLeft_eq,
    Nat.shiftRight_eq_div_pow]
  omega

/-- BATPDEC without EXT_PHYS (42_bat.md R141). -/
theorem exec_batpdec {s : State} (hrun : isHalted s = false) (hext : s.params.extPhys = false) (bits : Word) :
    exec (.batpdec bits) s = answerOk s (.batPa (dec32 bits)) := by
  simp [exec, execBatpdec, unlessHalted_running hrun, hext, ret_eq, answerOk]

/-- Settles O18: the word is the sum of its fields at their places, and dropping its low 17 bits leaves the address. -/
theorem lowerWordHoldsItsFields : Obligations.LowerWordHoldsItsFields := by
  unfold Obligations.LowerWordHoldsItsFields
  intro pa wimg pp s l hrun h
  obtain ⟨hext, hwimg, hpp, field, hok, rfl⟩ := batlenc_ok hrun h
  obtain ⟨hpa, haligned, hfield⟩ := encodeBatPa_ok hok
  have hl := lowerWord_toNat (hfield ▸ haligned) hwimg hpp
  rw [hfield] at hl
  have hdec : dec32 (lowerWord field wimg pp) = pa := BitVec.eq_of_toNat_eq (by rw [dec32_toNat, hl]; omega)
  refine ⟨?_, BitVec.eq_of_toNat_eq ?_, ?_, BitVec.eq_of_toNat_eq ?_, ?_, by rw [exec_batpdec hrun hext, hdec]⟩
  · rw [lowerBrpn, toNat_field, hl]; omega
  · rw [lowerRsvHigh, toNat_field, hl]; change _ = 0; omega
  · rw [lowerWimg, toNat_field, hl]; omega
  · rw [lowerRsvLow, toNat_field, hl]; change _ = 0; omega
  · rw [lowerPp, toNat_field, hl]; omega

end Sys2Proof.Machine
end

section
/-! SUPPORT. What the host presents later reaches no command: executing one commutes with replacing the inbox (20_memory.md
R47). -/

namespace Sys2Proof.Machine

/-! ## Updates of the state commute with replacing the inbox -/

theorem writeSr_withInbox (s : State) (later : List HostEvent) (n : BitVec 4) (v : Word) :
    writeSr (withInbox s later) n v = withInbox (writeSr s n v) later := rfl

theorem noteSrWrite_withInbox (s : State) (later : List HostEvent) :
    noteSrWrite (withInbox s later) = withInbox (noteSrWrite s) later := by
  rw [noteSrWrite_eq, noteSrWrite_eq]
  rfl

theorem writeSrs_withInbox (s : State) (later : List HostEvent) (log : List (BitVec 4 × Word)) :
    writeSrs (withInbox s later) log = withInbox (writeSrs s log) later := by
  induction log generalizing s with
  | nil => rfl
  | cons e rest ih => exact ih (writeSr s e.1 e.2)

/-! ## So do the operations of a command -/

/-- The outcome `a` is a next state, and `b` is the same one with the inbox `later`. -/
def SameWithLater (later : List HostEvent) (a b : Result) : Prop :=
  ∃ t : State, a = .next t ∧ b = .next (withInbox t later)

namespace SameWithLater

variable {s : State} {later : List HostEvent} {a b a' b' : Result}

theorem ret (results : Results) : SameWithLater later (ret s results) (ret (withInbox s later) results) :=
  ⟨_, rfl, rfl⟩

theorem raise (status : Status) (info : Nat) :
    SameWithLater later (raise s status info) (raise (withInbox s later) status info) :=
  ⟨_, rfl, rfl⟩

theorem takeFault (reason : FaultReason) (info : Nat) :
    SameWithLater later (takeFault s reason info) (takeFault (withInbox s later) reason info) :=
  ⟨_, rfl, rfl⟩

theorem of_sameAnswer (h : SameAnswer s (withInbox s later) a b) : SameWithLater later a b := by
  obtain ⟨r, ha, hb⟩ := h
  exact ⟨_, ha, hb⟩

theorem ite {c : Prop} [Decidable c] (hthen : SameWithLater later a b) (helse : SameWithLater later a' b') :
    SameWithLater later (if c then a else a') (if c then b else b') := by
  split
  · exact hthen
  · exact helse

theorem unlessHalted (hbody : SameWithLater later a b) :
    SameWithLater later (unlessHalted s a) (unlessHalted (withInbox s later) b) :=
  ite (raise _ _) hbody

theorem checkBatIndex (k : BitVec 4) (hbody : SameWithLater later a b) :
    SameWithLater later (checkBatIndex s k a) (checkBatIndex (withInbox s later) k b) :=
  ite (raise _ _) hbody

theorem withBat (k : BitVec 4) {f g : BatPair → Result} (hbody : ∀ p, SameWithLater later (f p) (g p)) :
    SameWithLater later (withBat s k f) (withBat (withInbox s later) k g) := by
  unfold Machine.withBat
  rw [readBat_congr (withInbox_bat s later)]
  cases readBat s k with
  | none => exact takeFault _ _
  | some p => exact hbody p

theorem withSr (n : BitVec 4) {f g : Word → Result} (hbody : ∀ v, SameWithLater later (f v) (g v)) :
    SameWithLater later (withSr s n f) (withSr (withInbox s later) n g) := by
  unfold Machine.withSr
  rw [readSr_congr (withInbox_sr s later)]
  cases readSr s n with
  | none => exact takeFault _ _
  | some v => exact hbody v

theorem scanBats (is : List (BitVec 4)) : SameWithLater later (scanBats s is) (scanBats (withInbox s later) is) := by
  induction is with
  | nil => exact ret _
  | cons k rest ih => exact withBat k fun _ => ite (ret _) ih

theorem execSrinst (seed : Word) : SameWithLater later (execSrinst seed s) (execSrinst seed (withInbox s later)) := by
  unfold Machine.execSrinst
  rw [writeSrs_withInbox, noteSrWrite_withInbox]
  exact unlessHalted (ret _)

theorem execSrwr (n : BitVec 4) (v : Word) : SameWithLater later (execSrwr n v s) (execSrwr n v (withInbox s later)) := by
  unfold Machine.execSrwr
  rw [writeSr_withInbox, noteSrWrite_withInbox]
  exact unlessHalted (ret _)

end SameWithLater

/-- Every command answers a next state, and the same one when the host presents something else after it. -/
theorem exec_sameWithLater (i : Instr) (s : State) (later : List HostEvent) :
    SameWithLater later (exec i s) (exec i (withInbox s later)) := by
  cases i with
  | batfree => exact .unlessHalted (.scanBats _)
  | batwr k => exact .unlessHalted (.checkBatIndex k ⟨_, rfl, rfl⟩)
  | batrd k => exact .unlessHalted (.checkBatIndex k (.withBat k fun _ => .ret _))
  | srinst seed => exact .execSrinst seed
  | srsync => exact .unlessHalted ⟨_, rfl, rfl⟩
  | srwr n v => exact .execSrwr n v
  | srrd n => exact .unlessHalted (.withSr n fun _ => .ret _)
  | uenter => exact .unlessHalted (.ite (.takeFault _ _) (.ret _))
  | vsid | vsidea | pteenc | ptedec | ppchk | batsize | batpenc | batpdec | batuenc | batlenc =>
    exact .of_sameAnswer (pureCommandsTouchNoState _ rfl s (withInbox s later) rfl rfl)

/-- Settles O41: the next state is that of the present inbox, and each later list of events is carried along. -/
theorem noCommandSeesLaterCommands : Obligations.NoCommandSeesLaterCommands := by
  unfold Obligations.NoCommandSeesLaterCommands
  intro i s
  obtain ⟨t, ht, -⟩ := exec_effects i s
  refine ⟨t, ht, fun later => ?_⟩
  obtain ⟨t', ht', hlater⟩ := exec_sameWithLater i s later
  cases ht.symm.trans ht'
  exact hlater

end Sys2Proof.Machine
end

section
/-! SUPPORT. What every step does with the inbox and the parameters: it takes the oldest event, or waits, and leaves the
parameters alone (20_memory.md R47, 00_scope.md R9). -/

namespace Sys2Proof.Machine

/-! ## A command leaves the parameters and the inbox alone -/

theorem Effect.params_eq {i : Instr} {s t : State} (heff : Effect s i t) : t.params = s.params := by
  cases heff with
  | halted | answers | records | batwr | srsync => rfl
  | srinst | srwr => simp

theorem Effect.inbox_eq {i : Instr} {s t : State} (heff : Effect s i t) : t.inbox = s.inbox := by
  cases heff with
  | halted | answers | records | batwr | srsync => rfl
  | srinst | srwr => simp

/-- Nor does the answer to an illegal word change them, whether the block is halted or not. -/
theorem unlessHalted_raise_frame {s t : State} {status : Status} {info : Nat}
    (h : unlessHalted s (raise s status info) = .next t) : t.params = s.params ∧ t.inbox = s.inbox := by
  rcases unlessHalted_cases s (raise s status info) with ⟨-, heq⟩ | ⟨-, heq⟩ <;> cases heq.symm.trans h <;>
    exact ⟨rfl, rfl⟩

/-- Settles O45: by the kinds of a step; a step that takes an event leaves in the inbox what stood behind it. -/
theorem stepTakesTheOldestEvent : Obligations.StepTakesTheOldestEvent := by
  unfold Obligations.StepTakesTheOldestEvent
  intro s t hstep
  rcases step_cases hstep with ⟨hin, rfl⟩ | ⟨rest, hin, rfl⟩ | ⟨c, rest, i, hin, -, hexec⟩ | ⟨c, rest, e, hin, -, -, hill⟩
  · exact ⟨rfl, .inl ⟨hin, rfl⟩⟩
  · exact ⟨rfl, .inr ⟨.reset, hin⟩⟩
  · have heff := effect_of_exec hexec
    have hrest : t.inbox = rest := heff.inbox_eq
    exact ⟨heff.params_eq, .inr ⟨.command c, hrest ▸ hin⟩⟩
  · obtain ⟨hparams, hrest⟩ := unlessHalted_raise_frame hill
    exact ⟨hparams, .inr ⟨.command c, hrest ▸ hin⟩⟩

end Sys2Proof.Machine
end

section
/-! SUPPORT. The serialisation of a page-table entry: the bytes of a word as numbers, and the word they make
(20_memory.md R41). -/

namespace Sys2Proof.Machine

theorem wordBytes_toNat (w : Word) :
    (wordBytes w).map (·.toNat) =
      [w.toNat / 2 ^ 24, w.toNat / 2 ^ 16 % 2 ^ 8, w.toNat / 2 ^ 8 % 2 ^ 8, w.toNat % 2 ^ 8] := by
  have htop : w.toNat / 2 ^ 24 < 2 ^ 8 := by omega
  simp only [wordBytes, List.map_cons, List.map_nil, toNat_field, Nat.mod_eq_of_lt htop, pow_zero, Nat.div_one]

/-- The four bytes of a word, joined most significant first, are the word. -/
theorem append_bytes_of_word (w : Word) :
    w.extractLsb' 24 8 ++ w.extractLsb' 16 8 ++ w.extractLsb' 8 8 ++ w.extractLsb' 0 8 = w := by
  rw [BitVec.extractLsb'_append_extractLsb'_eq_extractLsb' (show 24 = 16 + 8 from rfl),
    BitVec.extractLsb'_append_extractLsb'_eq_extractLsb' (show 16 = 8 + 8 from rfl),
    BitVec.extractLsb'_append_extractLsb'_eq_extractLsb' (show 8 = 0 + 8 from rfl)]
  exact BitVec.extractLsb'_eq_self

theorem pteOfBytes_pteBytes (w0 w1 : Word) : pteOfBytes (pteBytes w0 w1) = some (w0, w1) :=
  congrArg₂ (fun u v => some (u, v)) (append_bytes_of_word w0) (append_bytes_of_word w1)

/-- Settles O58: word by word, the bytes as numbers and the word they make. -/
theorem pteSerialisationIsBigEndian : Obligations.PteSerialisationIsBigEndian := by
  unfold Obligations.PteSerialisationIsBigEndian
  intro w0 w1
  refine ⟨?_, pteOfBytes_pteBytes w0 w1⟩
  rw [pteBytes, List.map_append, wordBytes_toNat, wordBytes_toNat]
  rfl

end Sys2Proof.Machine
end

section
/-! SUPPORT. The decoder and the encoder against each other: what a shape's command puts back on the word and the ports
(30_encoding.md R50 to R53). -/

namespace Sys2Proof

/-! ## When a command decodes -/

/-- A word is accepted when its opcode has a shape, its reserved bits are 0 and an index it does not use is 0. -/
theorem decodeWord_eq_ok_iff (word : Word) (shape : Shape) :
    decodeWord word = .ok shape ↔
      opcodeShape (wordOpc word) = some shape ∧ wordRsv word = 0 ∧ (shape.usesIdx = false → wordIdx word = 0) := by
  unfold decodeWord
  cases opcodeShape (wordOpc word) with
  | none => simp
  | some found =>
    dsimp only
    split_ifs with hrsv hidx
    · simp_all
    · simp only [Option.some.injEq, false_iff]
      rintro ⟨rfl, -, hzero⟩
      exact hidx.2 (hzero hidx.1)
    · simp only [Except.ok.injEq, Option.some.injEq, not_not.mp hrsv, true_and]
      exact ⟨by rintro rfl; exact ⟨rfl, by simpa using hidx⟩, And.left⟩

/-- As many port values as widths, each below 2^N for its width N (30_encoding.md R52). -/
def PortsFit (widths ports : List Nat) : Prop :=
  ports.length = widths.length ∧ ∀ wv ∈ widths.zip ports, wv.2 < 2 ^ wv.1

theorem decode_portCount {c : Command} {shape : Shape} (hword : decodeWord c.word = .ok shape)
    (hlen : c.ports.length ≠ shape.widths.length) : decode c = .error .portCount := by
  simp [decode, hword, hlen]

theorem decode_ok {c : Command} {shape : Shape} (hword : decodeWord c.word = .ok shape)
    (hfit : PortsFit shape.widths c.ports) : decode c = .ok (shape.build (wordIdx c.word) c.ports) := by
  simp [decode, hword, hfit.1, (firstMisfit_eq_none 0 _ _).mpr hfit.2]

theorem decode_portRange {c : Command} {shape : Shape} (hword : decodeWord c.word = .ok shape)
    (hlen : c.ports.length = shape.widths.length) (hfit : ¬ PortsFit shape.widths c.ports) :
    ∃ k, decode c = .error (.portRange k) := by
  cases hmis : firstMisfit 0 shape.widths c.ports with
  | none => exact absurd ⟨hlen, (firstMisfit_eq_none 0 _ _).mp hmis⟩ hfit
  | some k => exact ⟨k, by simp [decode, hword, hlen, hmis]⟩

/-- A command that decodes has a legal word and fitting ports, and is what its shape builds. -/
theorem decode_inv {c : Command} {i : Instr} (h : decode c = .ok i) :
    ∃ shape, decodeWord c.word = .ok shape ∧ PortsFit shape.widths c.ports ∧
      i = shape.build (wordIdx c.word) c.ports := by
  cases hword : decodeWord c.word with
  | error e => simp [decode, hword] at h
  | ok shape =>
    by_cases hlen : c.ports.length = shape.widths.length
    · by_cases hfit : PortsFit shape.widths c.ports
      · exact ⟨shape, rfl, hfit, by simpa [decode_ok hword hfit] using h.symm⟩
      · obtain ⟨k, hk⟩ := decode_portRange hword hlen hfit
        simp [hk] at h
    · simp [decode_portCount hword hlen] at h

/-! ## What a shape builds, and what it is built from -/

/-- The values that ports of these widths carry: each value given, cut to its port's width. -/
def carriedValues (widths ports : List Nat) : List Nat :=
  widths.mapIdx fun k w => (portValue (w := w) ports k).toNat

/-- Values that fit their ports are carried whole. -/
theorem carriedValues_of_fit {widths ports : List Nat} (h : PortsFit widths ports) :
    carriedValues widths ports = ports := by
  obtain ⟨hlen, hfit⟩ := h
  refine List.ext_getElem (by simp [carriedValues, hlen]) fun k hk hk' => ?_
  have hw : k < widths.length := hlen ▸ hk'
  have hlt : ports[k] < 2 ^ widths[k] := hfit _ (List.mem_iff_getElem.mpr ⟨k, by simp [hw, hk'], List.getElem_zip⟩)
  simp [carriedValues, portValue, hk', Nat.mod_eq_of_lt hlt]

/-- The command that the shape of an opcode builds is encoded with that opcode, the index where it is used, and the values
that its ports carry. -/
theorem encode_build {opc : BitVec 8} {shape : Shape} (h : opcodeShape opc = some shape) {idx : BitVec 4}
    (hidx : shape.usesIdx = false → idx = 0) (ports : List Nat) :
    encode (shape.build idx ports) = ⟨commandWord opc idx, carriedValues shape.widths ports⟩ := by
  have hopc : BitVec.ofNat 8 opc.toNat = opc := by simp
  unfold opcodeShape at h
  split at h
  case h_19 => cases h
  all_goals
    rename_i hnum
    rw [hnum] at hopc
    cases h
    subst hopc
  -- BATWR, BATRD, SRWR and SRRD keep their index; every other command is encoded with 0
  case h_12 | h_13 | h_16 | h_17 => rfl
  all_goals
    cases hidx rfl
    rfl

/-- The opcode of every instruction has a shape, which builds the instruction from its own index and port values. -/
theorem build_of_encoding (i : Instr) :
    ∃ shape, opcodeShape (opcodeOf i) = some shape ∧ (shape.usesIdx = false → indexOf i = 0) ∧
      PortsFit shape.widths (portsOf i) ∧ shape.build (indexOf i) (portsOf i) = i := by
  cases i with
  | batrd | srrd => exact ⟨_, rfl, nofun, ⟨rfl, nofun⟩, rfl⟩
  | batwr | srwr => exact ⟨_, rfl, nofun, ⟨rfl, by simp [portsOf]; omega⟩, by simp [portsOf, indexOf]⟩
  | batfree | srsync | uenter => exact ⟨_, rfl, fun _ => rfl, ⟨rfl, nofun⟩, rfl⟩
  | pteenc =>
    exact ⟨_, rfl, fun _ => rfl, ⟨rfl, by simp [portsOf, PtePorts.values]; omega⟩,
      by simp [portsOf, PtePorts.values, ptePortsOf]⟩
  | _ => exact ⟨_, rfl, fun _ => rfl, ⟨rfl, by simp [portsOf]; omega⟩, by simp [portsOf]⟩

/-- Settles O52: the word gives back the opcode and the index, and the opcode's shape builds the instruction from them. -/
theorem decodeOfEncodeIsTheInstruction : Obligations.DecodeOfEncodeIsTheInstruction := by
  unfold Obligations.DecodeOfEncodeIsTheInstruction
  intro i
  obtain ⟨shape, hshape, hidx, hfit, hbuild⟩ := build_of_encoding i
  have hword : decodeWord (encode i).word = .ok shape :=
    (decodeWord_eq_ok_iff _ _).mpr (by simpa [encode_word] using ⟨hshape, hidx⟩)
  rw [decode_ok hword hfit, encode_word, wordIdx_commandWord]
  exact congrArg _ hbuild

/-- Settles O53: the word is made of its own opcode and index, and values that fit their ports are carried whole. -/
theorem encodeOfDecodeIsTheCommand : Obligations.EncodeOfDecodeIsTheCommand := by
  unfold Obligations.EncodeOfDecodeIsTheCommand
  intro c i h
  obtain ⟨shape, hword, hfit, rfl⟩ := decode_inv h
  obtain ⟨hshape, hrsv, hidx⟩ := (decodeWord_eq_ok_iff _ _).mp hword
  rw [encode_build hshape hidx, carriedValues_of_fit hfit, commandWord_of_fields hrsv]

end Sys2Proof
end

section
/-! SUPPORT. The decoder, which follows the steps of 30_encoding.md R54, against the rows of the opcode table, which state it
by mask and match (R53, R54). -/

namespace Sys2Proof

/-! ## Words by their fields -/

theorem wordOpc_and (a b : Word) : wordOpc (a &&& b) = wordOpc a &&& wordOpc b := BitVec.extractLsb'_and

theorem wordRsv_and (a b : Word) : wordRsv (a &&& b) = wordRsv a &&& wordRsv b := BitVec.extractLsb'_and

theorem wordIdx_and (a b : Word) : wordIdx (a &&& b) = wordIdx a &&& wordIdx b := BitVec.extractLsb'_and

/-- A word is an encoded one exactly when its three fields are that one's (30_encoding.md R50). -/
theorem eq_commandWord_iff {word : Word} {opc : BitVec 8} {idx : BitVec 4} :
    word = commandWord opc idx ↔ wordOpc word = opc ∧ wordRsv word = 0 ∧ wordIdx word = idx := by
  constructor
  · rintro rfl
    simp
  · rintro ⟨rfl, hrsv, rfl⟩
    exact (commandWord_of_fields hrsv).symm

/-! ## Rows and shapes -/

/-- The row of the opcode table says what the shape of its opcode says. -/
structure Row.Describes (row : Row) (shape : Shape) : Prop where
  shape_eq : opcodeShape (wordOpc row.pattern) = some shape
  pattern_eq : row.pattern = commandWord (wordOpc row.pattern) 0
  mask_eq : row.mask = if shape.usesIdx then 0xFFFFFFF0 else 0xFFFFFFFF
  widths_eq : shape.widths = row.ports.map Prod.snd
  mnemonic_eq : ∀ idx ports, mnemonicOf (shape.build idx ports) = row.mnemonic

theorem describes_of_mem_opcodeTable : ∀ row ∈ opcodeTable, ∃ shape, row.Describes shape := by
  simp only [opcodeTable, rowsVsidPte, rowsBat, rowsSegment, List.forall_mem_append, List.forall_mem_cons,
    List.not_mem_nil, false_imp_iff, forall_true_iff, and_true]
  and_intros
  all_goals exact ⟨_, rfl, by decide, rfl, rfl, fun _ _ => rfl⟩

theorem opcodes_nodup : (opcodeTable.map fun row => wordOpc row.pattern).Nodup := by decide

theorem opcodeOf_mem_opcodes (i : Instr) : opcodeOf i ∈ opcodeTable.map fun row => wordOpc row.pattern := by
  cases i <;> simp only [opcodeOf] <;> decide

/-- Every opcode that has a shape is that of the commands it builds, so it has a row, which says the same. -/
theorem exists_row_of_opcodeShape {opc : BitVec 8} {shape : Shape} (h : opcodeShape opc = some shape) :
    ∃ row ∈ opcodeTable, wordOpc row.pattern = opc ∧ row.Describes shape := by
  have hword := congrArg Command.word (encode_build h (idx := 0) (fun _ => rfl) [])
  have hopc : opcodeOf (shape.build 0 []) = opc := by simpa [encode_word] using congrArg wordOpc hword
  obtain ⟨row, hrow, hpattern⟩ := List.mem_map.mp (opcodeOf_mem_opcodes (shape.build 0 []))
  obtain ⟨found, hdesc⟩ := describes_of_mem_opcodeTable row hrow
  have hfound := hdesc.shape_eq
  rw [hpattern, hopc, h, Option.some.injEq] at hfound
  exact ⟨row, hrow, hpattern.trans hopc, hfound ▸ hdesc⟩

/-- The mask of a row that does not use IDX keeps all three fields (30_encoding.md R54). -/
theorem fields_fullMask : wordOpc 0xFFFFFFFF = .allOnes 8 ∧ wordRsv 0xFFFFFFFF = .allOnes 20 ∧
    wordIdx 0xFFFFFFFF = .allOnes 4 := by decide

/-- The mask of a row that uses IDX leaves that field out (30_encoding.md R54). -/
theorem fields_idxMask : wordOpc 0xFFFFFFF0 = .allOnes 8 ∧ wordRsv 0xFFFFFFF0 = .allOnes 20 ∧
    wordIdx 0xFFFFFFF0 = 0#4 := by decide

/-- What a row's mask and match ask of a word: the row's opcode, reserved bits 0, and index 0 where it is not used. -/
theorem Row.Describes.selects_iff {row : Row} {shape : Shape} (h : row.Describes shape) (word : Word) :
    row.selects word = true ↔ wordOpc word = wordOpc row.pattern ∧ wordRsv word = 0 ∧
      (shape.usesIdx = false → wordIdx word = 0) := by
  rw [Row.selects, beq_iff_eq, h.pattern_eq, eq_commandWord_iff, wordOpc_and, wordRsv_and, wordIdx_and, h.mask_eq,
    wordOpc_commandWord]
  cases shape.usesIdx
  · obtain ⟨hopc, hrsv, hidx⟩ := fields_fullMask
    simp only [Bool.false_eq_true, if_false, hopc, hrsv, hidx, BitVec.and_allOnes, forall_true_left]
  · obtain ⟨hopc, hrsv, hidx⟩ := fields_idxMask
    simp only [if_true, hopc, hrsv, hidx, BitVec.and_allOnes, BitVec.and_zero]
    simp

theorem selects_iff_and_mask {row : Row} {word : Word} : row.selects word = true ↔ word &&& row.mask = row.pattern :=
  beq_iff_eq

/-- No two rows match one word: their opcodes differ. -/
theorem row_unique {a b : Row} {word : Word} (ha : a ∈ opcodeTable) (hb : b ∈ opcodeTable) (hsa : a.selects word = true)
    (hsb : b.selects word = true) : a = b := by
  obtain ⟨shapeA, hdescA⟩ := describes_of_mem_opcodeTable a ha
  obtain ⟨shapeB, hdescB⟩ := describes_of_mem_opcodeTable b hb
  have hopcA := ((hdescA.selects_iff word).mp hsa).1
  have hopcB := ((hdescB.selects_iff word).mp hsb).1
  exact List.inj_on_of_nodup_map opcodes_nodup ha hb (hopcA.symm.trans hopcB)

/-- A search that one element of the list alone satisfies finds it. -/
theorem find?_eq_some_of_unique {α : Type} {p : α → Bool} {l : List α} {x : α} (hx : x ∈ l) (hp : p x = true)
    (huniq : ∀ y ∈ l, p y = true → y = x) : l.find? p = some x := by
  obtain ⟨y, hy⟩ := Option.isSome_iff_exists.mp (List.find?_isSome.mpr ⟨x, hx, hp⟩)
  rw [hy, huniq y (List.mem_of_find?_eq_some hy) (List.find?_some hy)]

theorem rowOf_eq_some_iff {word : Word} {row : Row} :
    rowOf word = some row ↔ row ∈ opcodeTable ∧ row.selects word = true := by
  unfold rowOf
  constructor
  · intro h
    exact ⟨List.mem_of_find?_eq_some h, by simpa using List.find?_some h⟩
  · rintro ⟨hmem, hsel⟩
    exact find?_eq_some_of_unique hmem hsel fun _ hother hsel' => row_unique hother hmem hsel' hsel

/-- The decoder's steps accept a word exactly when it selects a row, with the shape that the row describes. -/
theorem decodeWord_eq_ok_iff_row {word : Word} {shape : Shape} :
    decodeWord word = .ok shape ↔ ∃ row, rowOf word = some row ∧ row.Describes shape := by
  rw [decodeWord_eq_ok_iff]
  constructor
  · rintro ⟨hshape, hrsv, hidx⟩
    obtain ⟨row, hrow, hopc, hdesc⟩ := exists_row_of_opcodeShape hshape
    exact ⟨row, rowOf_eq_some_iff.mpr ⟨hrow, (hdesc.selects_iff word).mpr ⟨hopc.symm, hrsv, hidx⟩⟩, hdesc⟩
  · rintro ⟨row, hrow, hdesc⟩
    obtain ⟨hopc, hrsv, hidx⟩ := (hdesc.selects_iff word).mp (rowOf_eq_some_iff.mp hrow).2
    exact ⟨hopc ▸ hdesc.shape_eq, hrsv, hidx⟩

theorem exists_describes_of_rowOf {word : Word} {row : Row} (h : rowOf word = some row) :
    ∃ shape, decodeWord word = .ok shape ∧ row.Describes shape := by
  obtain ⟨shape, hdesc⟩ := describes_of_mem_opcodeTable row (rowOf_eq_some_iff.mp h).1
  exact ⟨shape, decodeWord_eq_ok_iff_row.mpr ⟨row, h, hdesc⟩, hdesc⟩

/-- Settles O49: a word that decodes has the row of its opcode, and the opcodes of the rows are distinct. -/
theorem decoderFollowsTheOpcodeTable : Obligations.DecoderFollowsTheOpcodeTable := by
  unfold Obligations.DecoderFollowsTheOpcodeTable
  simp only [← selects_iff_and_mask]
  refine ⟨fun w => ⟨?_, ?_⟩, fun w ports i row hdec hmem hsel => ?_, fun w a b => row_unique⟩
  · rintro ⟨shape, hword⟩
    obtain ⟨row, hrow, -⟩ := decodeWord_eq_ok_iff_row.mp hword
    exact ⟨row, rowOf_eq_some_iff.mp hrow⟩
  · rintro ⟨row, hrow⟩
    obtain ⟨shape, hword, -⟩ := exists_describes_of_rowOf (rowOf_eq_some_iff.mpr hrow)
    exact ⟨shape, hword⟩
  · obtain ⟨shape, hword, -, rfl⟩ := decode_inv hdec
    obtain ⟨found, hfound, hdesc⟩ := exists_describes_of_rowOf (rowOf_eq_some_iff.mpr ⟨hmem, hsel⟩)
    obtain rfl : found = shape := by simpa [hfound] using hword
    exact hdesc.mnemonic_eq _ _

/-! ## Well-formed commands -/

/-- The two port checks together say that the values fit the widths of the row. -/
theorem arityOk_and_rangeOk_iff {c : Command} {row : Row} {shape : Shape} (hrow : rowOf c.word = some row)
    (hdesc : row.Describes shape) :
    (c.arityOk = true ↔ c.ports.length = shape.widths.length) ∧
    (c.rangeOk = true ↔ ∀ wv ∈ shape.widths.zip c.ports, wv.2 < 2 ^ wv.1) := by
  constructor
  · simp [Command.arityOk, hrow, hdesc.widths_eq]
  · simp only [Command.rangeOk, hrow, hdesc.widths_eq, List.zip_map_left, List.all_eq_true, decide_eq_true_eq,
      List.forall_mem_map, Prod.map_fst, Prod.map_snd, id]

theorem exists_row_of_wordOk {c : Command} (h : c.wordOk = true) : ∃ row, rowOf c.word = some row :=
  Option.isSome_iff_exists.mp h

/-- Settles O51: a legal word has a row, and the row's checks of the ports are the decoder's. -/
theorem decoderAcceptsExactlyWellFormed : Obligations.DecoderAcceptsExactlyWellFormed := by
  unfold Obligations.DecoderAcceptsExactlyWellFormed
  intro c
  simp only [Command.WellFormed, Bool.and_eq_true]
  constructor
  · rintro ⟨i, hdec⟩
    obtain ⟨shape, hword, ⟨hlen, hfit⟩, -⟩ := decode_inv hdec
    obtain ⟨row, hrow, hdesc⟩ := decodeWord_eq_ok_iff_row.mp hword
    obtain ⟨harity, hrange⟩ := arityOk_and_rangeOk_iff hrow hdesc
    exact ⟨⟨by simp [Command.wordOk, hrow], harity.mpr hlen⟩, hrange.mpr hfit⟩
  · rintro ⟨⟨hok, harityOk⟩, hrangeOk⟩
    obtain ⟨row, hrow⟩ := exists_row_of_wordOk hok
    obtain ⟨shape, hword, hdesc⟩ := exists_describes_of_rowOf hrow
    obtain ⟨harity, hrange⟩ := arityOk_and_rangeOk_iff hrow hdesc
    exact ⟨_, decode_ok hword ⟨harity.mp harityOk, hrange.mp hrangeOk⟩⟩

/-- Settles O54: the decoder finds the wrong count, or else the value that does not fit, whatever the state. -/
theorem misfitPortsAreRefused : Obligations.MisfitPortsAreRefused := by
  unfold Obligations.MisfitPortsAreRefused
  intro c s hok
  obtain ⟨row, hrow⟩ := exists_row_of_wordOk hok
  obtain ⟨shape, hword, hdesc⟩ := exists_describes_of_rowOf hrow
  obtain ⟨harity, hrange⟩ := arityOk_and_rangeOk_iff hrow hdesc
  constructor
  · intro hbad
    have hdec := decode_portCount hword fun hlen => by simp [harity.mpr hlen] at hbad
    simp [Machine.takeCommand, hdec]
  · intro hlen hbad
    obtain ⟨k, hdec⟩ := decode_portRange hword (harity.mp hlen) fun hfit => by simp [hrange.mpr hfit.2] at hbad
    exact ⟨k, by simp [Machine.takeCommand, hdec]⟩

/-! ## Illegal words -/

/-- The opcodes of 30_encoding.md R53 lie in the ranges that R55 leaves, and four of them use IDX. -/
theorem opcode_of_row : ∀ row ∈ opcodeTable,
    ((0x01 ≤ (wordOpc row.pattern).toNat ∧ (wordOpc row.pattern).toNat ≤ 0x02) ∨
      (0x10 ≤ (wordOpc row.pattern).toNat ∧ (wordOpc row.pattern).toNat ≤ 0x12) ∨
      (0x20 ≤ (wordOpc row.pattern).toNat ∧ (wordOpc row.pattern).toNat ≤ 0x25) ∨
      (0x28 ≤ (wordOpc row.pattern).toNat ∧ (wordOpc row.pattern).toNat ≤ 0x29) ∨
      (0x30 ≤ (wordOpc row.pattern).toNat ∧ (wordOpc row.pattern).toNat ≤ 0x34)) ∧
    (row.mask = 0xFFFFFFF0 → (wordOpc row.pattern).toNat ∈ [0x28, 0x29, 0x32, 0x33]) := by decide

/-- A word refused by the steps of 30_encoding.md R54 is illegal, whatever the ports. -/
theorem decode_illegal {c : Command} (h : ∀ shape, decodeWord c.word ≠ .ok shape) :
    ∃ e, decode c = .error e ∧ Machine.isIllegal e = true := by
  cases hword : decodeWord c.word with
  | ok shape => exact absurd hword (h shape)
  | error e =>
    refine ⟨e, by simp [decode, hword], ?_⟩
    unfold decodeWord at hword
    split at hword
    · cases hword; rfl
    · split_ifs at hword <;> cases hword <;> rfl

/-- Settles O50: an accepted word has an opcode in use, reserved bits 0 and no unused index, so such a word is illegal. -/
theorem illegalWordAnswersIllegalCmd : Obligations.IllegalWordAnswersIllegalCmd := by
  unfold Obligations.IllegalWordAnswersIllegalCmd
  rintro c s opc hopc hbad
  have hno : ∀ shape, decodeWord c.word ≠ .ok shape := by
    intro shape hword
    obtain ⟨hshape, hrsv, hidx⟩ := (decodeWord_eq_ok_iff _ _).mp hword
    obtain ⟨row, hrow, hpattern, hdesc⟩ := exists_row_of_opcodeShape hshape
    obtain ⟨hused, huses⟩ := opcode_of_row row hrow
    have hopcNat : (wordOpc c.word).toNat = opc := by
      rw [wordOpc, Machine.toNat_field, hopc]
      omega
    have hrsvNat : c.word.toNat / 2 ^ 4 % 2 ^ 20 = 0 := by
      rw [← Machine.toNat_field]
      exact congrArg BitVec.toNat hrsv
    rw [hpattern, hopcNat] at hused huses
    rcases hbad with hreserved | hbits | ⟨hunused, hindex⟩
    · omega
    · exact hbits hrsvNat
    · have huse : shape.usesIdx = false := by
        by_contra husesIdx
        exact hunused (huses (by simp [hdesc.mask_eq, husesIdx]))
      have hzero := congrArg BitVec.toNat (hidx huse)
      rw [wordIdx, Machine.toNat_field] at hzero
      exact hindex (by simpa using hzero)
  obtain ⟨e, hdec, hill⟩ := decode_illegal hno
  exact Machine.takeCommand_illegal hdec hill s

/-! ## Words written out -/

/-- Settles O48: each word written out is the encoding of its command. -/
theorem wordsOfTheOpcodeMapDecode : Obligations.WordsOfTheOpcodeMapDecode :=
  ⟨decodeOfEncodeIsTheInstruction (.vsid 5 3), decodeOfEncodeIsTheInstruction (.ptedec 7 8),
    decodeOfEncodeIsTheInstruction (.batwr 10 1 2), decodeOfEncodeIsTheInstruction (.srwr 15 9),
    decodeOfEncodeIsTheInstruction .uenter⟩

end Sys2Proof
end

section
/-! SUPPORT. The assembler: a line that spells an instruction, its ports in any order, assembles to the instruction's encoding
(30_encoding.md R57). -/

namespace Sys2Proof.Machine

/-! ## The row of an instruction -/

/-- What the assembler needs of the row that an instruction's word selects. -/
structure SpelledBy (i : Instr) (row : Row) : Prop where
  rowOf_eq : rowOf (encode i).word = some row
  mnemonic_eq : row.mnemonic = mnemonicOf i
  pattern_eq : row.pattern = commandWord (opcodeOf i) 0
  index_eq : rowUsesIdx row = false → indexOf i = 0
  length_eq : (portsOf i).length = row.ports.length

/-- A row's mask leaves IDX out exactly when its shape uses IDX (30_encoding.md R54). -/
theorem rowUsesIdx_of_describes {row : Row} {shape : Shape} (h : row.Describes shape) :
    rowUsesIdx row = shape.usesIdx := by
  rw [rowUsesIdx, h.mask_eq]
  cases shape.usesIdx <;> decide

theorem exists_spelledBy (i : Instr) : ∃ row, SpelledBy i row := by
  obtain ⟨shape, hword, ⟨hlen, -⟩, hbuild⟩ := decode_inv (decodeOfEncodeIsTheInstruction i)
  obtain ⟨row, hrow, hdesc⟩ := decodeWord_eq_ok_iff_row.mp hword
  obtain ⟨hopc, -, hidx⟩ := (hdesc.selects_iff _).mp (rowOf_eq_some_iff.mp hrow).2
  rw [encode_word, wordOpc_commandWord] at hopc
  rw [encode_word, wordIdx_commandWord] at hidx
  exact ⟨row, {
    rowOf_eq := hrow
    mnemonic_eq := by rw [hbuild, hdesc.mnemonic_eq]
    pattern_eq := by rw [hdesc.pattern_eq, hopc]
    index_eq := by rwa [rowUsesIdx_of_describes hdesc]
    length_eq := by simpa [encode, hdesc.widths_eq] using hlen }⟩

theorem mnemonics_nodup : (opcodeTable.map (·.mnemonic)).Nodup := by decide

/-- A mnemonic finds its own row. -/
theorem find?_mnemonic {row : Row} (h : row ∈ opcodeTable) :
    (opcodeTable.find? fun r => r.mnemonic == row.mnemonic) = some row :=
  find?_eq_some_of_unique h (by simp) fun _ hother heq =>
    List.inj_on_of_nodup_map mnemonics_nodup hother h (by simpa using heq)

/-! ## The index -/

theorem lineIndex_of_spelledBy {i : Instr} {row : Row} (h : SpelledBy i row) :
    lineIndex row (if rowUsesIdx row then some (indexOf i).toNat else none) = some (indexOf i) := by
  cases huse : rowUsesIdx row with
  | true => simp [lineIndex, huse, (indexOf i).isLt]
  | false => simp [lineIndex, huse, h.index_eq huse]

theorem pattern_or_index {i : Instr} {row : Row} (h : SpelledBy i row) :
    row.pattern ||| (indexOf i).setWidth 32 = (encode i).word := by
  rw [h.pattern_eq, encode_word, commandWord_eq, commandWord_eq]
  simp

/-! ## The ports -/

/-- A list without repeated keys gives each key its own value. -/
theorem lookup_of_mem {given : List (String × Nat)} (hkeys : (given.map Prod.fst).Nodup) {port : String × Nat}
    (h : port ∈ given) : given.lookup port.1 = some port.2 := by
  induction given with
  | nil => cases h
  | cons first rest ih =>
    obtain ⟨name, value⟩ := first
    obtain ⟨hfirst, hrest⟩ := List.nodup_cons.mp hkeys
    rcases List.mem_cons.mp h with rfl | hmem
    · simp
    · have hne : port.1 ≠ name := fun heq => hfirst (List.mem_map.mpr ⟨port, hmem, heq⟩)
      simpa [List.lookup_cons, beq_false_of_ne hne] using ih hrest hmem

/-- Names that are each given their value are all looked up. -/
theorem lookupPorts_of_lookup {given want : List (String × Nat)} {values : List Nat} (hlen : values.length = want.length)
    (h : ∀ port ∈ (want.map Prod.fst).zip values, given.lookup port.1 = some port.2) :
    lookupPorts given want = some values := by
  induction want generalizing values with
  | nil => simp_all [lookupPorts]
  | cons first rest ih =>
    obtain ⟨v, vs, rfl⟩ := List.exists_cons_of_length_eq_add_one hlen
    simp only [List.map_cons, List.zip_cons_cons, List.forall_mem_cons] at h
    simp [lookupPorts, h.1, ih (by simpa using hlen) h.2]

theorem port_names_nodup : ∀ row ∈ opcodeTable, (row.ports.map Prod.fst).Nodup := by decide

/-- Values named in any order are put in the row's order. -/
theorem linePorts_of_perm {want given : List (String × Nat)} {values : List Nat} (hlen : values.length = want.length)
    (hnames : (want.map Prod.fst).Nodup) (hperm : given.Perm ((want.map Prod.fst).zip values)) :
    linePorts want given = some values := by
  have hkeys : (given.map Prod.fst).Nodup := by
    rw [(hperm.map Prod.fst).nodup_iff, List.map_fst_zip (by simp [hlen])]
    exact hnames
  have hcount : given.length = want.length := by simp [hperm.length_eq, hlen]
  rw [linePorts, if_pos hcount]
  exact lookupPorts_of_lookup hlen fun port hport => lookup_of_mem hkeys (hperm.mem_iff.mpr hport)

/-- Settles O55: the mnemonic finds the instruction's row, which gives the opcode, and each port is looked up by its name. -/
theorem portsAssembleInAnyOrder : Obligations.PortsAssembleInAnyOrder := by
  unfold Obligations.PortsAssembleInAnyOrder
  intro i given hperm
  obtain ⟨row, hrow⟩ := exists_spelledBy i
  have hmem := (rowOf_eq_some_iff.mp hrow.rowOf_eq).1
  have hline : lineOf i = ⟨mnemonicOf i, if rowUsesIdx row then some (indexOf i).toNat else none,
      (row.ports.map Prod.fst).zip (portsOf i)⟩ := by
    simp only [lineOf, hrow.rowOf_eq]
  rw [hline] at hperm ⊢
  have hports := linePorts_of_perm hrow.length_eq (port_names_nodup row hmem) hperm
  simp only [assemble, ← hrow.mnemonic_eq, find?_mnemonic hmem, lineIndex_of_spelledBy hrow, hports,
    pattern_or_index hrow]
  rfl

end Sys2Proof.Machine
end

section
/-! SUPPORT. The response of a command: its results are those of the command's own row (30_encoding.md R53), and with the
effects of a command, everything R56 says of the response. -/

namespace Sys2Proof.Machine

/-- Whatever results the outcome `a` shows are those that the row of `i` names. -/
def ResultsOfRow (i : Instr) (a : Result) : Prop :=
  ∀ t r x, a = .next t → t.response = some r → r.results = some x → resultsFit i x = true

namespace ResultsOfRow

variable {s : State} {i : Instr} {a b : Result}

/-! ## The operations a command ends with -/

theorem ret {results : Results} (h : resultsFit i results = true) : ResultsOfRow i (ret s results) := by
  rintro _ _ _ ⟨⟩ ⟨⟩ ⟨⟩
  exact h

theorem raise {status : Status} {info : Nat} : ResultsOfRow i (raise s status info) := by
  rintro _ _ _ ⟨⟩ ⟨⟩ ⟨⟩

theorem takeFault {reason : FaultReason} {info : Nat} : ResultsOfRow i (takeFault s reason info) := by
  rintro _ _ _ ⟨⟩ ⟨⟩ ⟨⟩

theorem ite {c : Prop} [Decidable c] (hthen : ResultsOfRow i a) (helse : ResultsOfRow i b) :
    ResultsOfRow i (if c then a else b) := by
  split
  · exact hthen
  · exact helse

theorem unlessHalted (hbody : ResultsOfRow i a) : ResultsOfRow i (unlessHalted s a) := ite raise hbody

theorem checkBatIndex {k : BitVec 4} (hbody : ResultsOfRow i a) : ResultsOfRow i (checkBatIndex s k a) := ite raise hbody

theorem withBat {k : BitVec 4} {f : BatPair → Result} (hbody : ∀ p, ResultsOfRow i (f p)) :
    ResultsOfRow i (withBat s k f) := by
  unfold Machine.withBat
  cases readBat s k with
  | none => exact takeFault
  | some p => exact hbody p

theorem withSr {n : BitVec 4} {f : Word → Result} (hbody : ∀ v, ResultsOfRow i (f v)) : ResultsOfRow i (withSr s n f) := by
  unfold Machine.withSr
  cases readSr s n with
  | none => exact takeFault
  | some v => exact hbody v

theorem scanBats (is : List (BitVec 4)) : ResultsOfRow .batfree (scanBats s is) := by
  induction is with
  | nil => exact ret rfl
  | cons k rest ih => exact withBat fun p => ite (ret rfl) ih

end ResultsOfRow

theorem exec_resultsOfRow (i : Instr) (s : State) : ResultsOfRow i (exec i s) := by
  cases i with
  | vsid | vsidea | ppchk | srinst | srsync | srwr => exact .unlessHalted (.ret rfl)
  | ptedec | batsize | batuenc => exact .unlessHalted (.ite .raise (.ite .raise (.ret rfl)))
  | pteenc ports =>
    refine .unlessHalted ?_
    cases firstTooWide 0 (pteChecks ports) with
    | some k => exact .raise
    | none => exact .ite .raise (.ret rfl)
  | batfree => exact .unlessHalted (.scanBats _)
  | batpenc pa =>
    refine .unlessHalted ?_
    cases encodeBatPa s.params.extPhys pa with
    | error status => exact .raise
    | ok bits => exact .ret rfl
  | batpdec => exact .unlessHalted (.ite (.ite (.ret rfl) .raise) (.ret rfl))
  | batlenc pa wimg pp =>
    refine .unlessHalted (.ite .raise ?_)
    cases encodeBatPa s.params.extPhys pa with
    | error status => exact .raise
    | ok field => exact .ite .raise (.ite .raise (.ret rfl))
  | batwr => exact .unlessHalted (.checkBatIndex (.ret rfl))
  | batrd => exact .unlessHalted (.checkBatIndex (.withBat fun _ => .ret rfl))
  | srrd => exact .unlessHalted (.withSr fun _ => .ret rfl)
  | uenter => exact .unlessHalted (.ite .takeFault (.ret rfl))

/-- Results exactly when the status is OK, and an info that goes with the status. -/
theorem responseOk_iff (r : Response) :
    responseOk r = true ↔ (r.status = .ok ↔ r.results.isSome = true) ∧ infoFits r.status r.info = true := by
  rw [responseOk, Bool.and_eq_true, beq_iff_eq, Bool.eq_iff_iff, beq_iff_eq]

/-- The response that a command leaves fits its status, and unless that is OK all but the fault set stays as it was. -/
theorem Effect.response_frame {i : Instr} {s t : State} (h : Effect s i t) :
    ∃ r, t.response = some r ∧ responseOk r = true ∧
      (r.status ≠ .ok → t = { s with faults := t.faults, response := some r }) := by
  cases h with
  | halted => exact ⟨_, rfl, rfl, fun _ => rfl⟩
  | answers _ _ hfit => exact ⟨_, rfl, hfit, fun _ => rfl⟩
  | @records _ reason _ _ _ hfit =>
    exact ⟨_, rfl, by cases reason <;> exact (responseOk_iff _).mpr ⟨by simp [stickyStatus], hfit⟩, fun _ => rfl⟩
  | batwr | srinst | srsync | srwr => exact ⟨_, rfl, rfl, fun hne => absurd rfl hne⟩

/-- Settles O32: the effect of the command gives the response and the frame, its row the results. -/
theorem everyCommandAnswersOneResponse : Obligations.EveryCommandAnswersOneResponse := by
  unfold Obligations.EveryCommandAnswersOneResponse
  intro i s
  obtain ⟨t, hexec, heff⟩ := exec_effects i s
  obtain ⟨r, hresp, hok, hframe⟩ := heff.response_frame
  obtain ⟨hresults, hinfo⟩ := (responseOk_iff r).mp hok
  exact ⟨t, r, hexec, hresp, hresults, fun x hx => exec_resultsOfRow i s t r x hexec hresp hx, hinfo, hframe⟩

end Sys2Proof.Machine
end

section
/-! SUPPORT. Runs of presented commands, and the pseudo-commands SWITCHCTX and BATINIT (30_encoding.md R58). -/

namespace Sys2Proof.Machine

/-! ## One step of a run -/

/-- Settles O46: by the equation of a step for each kind of event, and that of a command that decodes. -/
theorem stepExecutesTheDecodedCommand : Obligations.StepExecutesTheDecodedCommand := by
  unfold Obligations.StepExecutesTheDecodedCommand
  exact ⟨fun _ _ _ _ hin hdec => (step_command hin).trans (takeCommand_ok hdec _), fun _ _ _ => step_command,
    fun _ _ => step_reset, fun _ => step_waiting⟩

/-- The events that present a sequence of instructions. -/
def commandsOf (is : List Instr) : List HostEvent := is.map fun i => .command (encode i)

theorem present_inbox (s : State) (is : List Instr) : (present s is).inbox = s.inbox ++ commandsOf is := rfl

/-- A run whose first event is the encoding of an instruction goes on from what the instruction answers. -/
theorem run_succ_of_exec {s t : State} {i : Instr} {rest : List HostEvent} (k : Nat)
    (hin : s.inbox = .command (encode i) :: rest) (hexec : exec i (withInbox s rest) = .next t) :
    Host.Core.run Sys2Proof.core (k + 1) s = Host.Core.run Sys2Proof.core k t := by
  have hstep : Sys2Proof.core.step s = .next t := by
    have hdec := decodeOfEncodeIsTheInstruction i
    exact (step_command hin).trans ((takeCommand_ok hdec _).trans hexec)
  simp only [Host.Core.run, hstep]

/-! ## SWITCHCTX -/

theorem exec_srinst {s : State} (hrun : isHalted s = false) (seed : Word) :
    exec (.srinst seed) s = ret (noteSrWrite (writeSrs s (installLog s.params seed)))
      (.installed (BitVec.ofNat 5 s.params.numUserSegments) (installLog s.params seed)) :=
  unlessHalted_running hrun _

theorem exec_srsync {s : State} (hrun : isHalted s = false) :
    exec .srsync s = ret (setSync s false) .empty :=
  unlessHalted_running hrun _

/-- UENTER is OK on a running block that owes no barrier (43_segment_install.md R169). -/
theorem exec_uenter_ok {s : State} (hrun : isHalted s = false) (hsync : s.syncPending = false) :
    exec .uenter s = answerOk s .empty := by
  rw [show exec .uenter s = _ from unlessHalted_running hrun _, if_neg (by simp [hsync])]
  rfl

@[simp] theorem isHalted_noteSrWrite (s : State) : isHalted (noteSrWrite s) = isHalted s := by simp [isHalted]

@[simp] theorem isHalted_writeSrs (s : State) (log : List (BitVec 4 × Word)) : isHalted (writeSrs s log) = isHalted s := by
  simp [isHalted]

/-- Settles O56: SRINST leaves the block running, and SRSYNC then clears the flag whatever SRINST made of it. -/
theorem switchCtxLeavesNoBarrierOwed : Obligations.SwitchCtxLeavesNoBarrierOwed := by
  unfold Obligations.SwitchCtxLeavesNoBarrierOwed
  intro seed s hrun hin
  have hpresented : (present s (switchCtx seed)).inbox =
      .command (encode (.srinst seed)) :: commandsOf [.srsync] := by
    rw [present_inbox, hin]
    rfl
  have hrunning : isHalted (withInbox (present s (switchCtx seed)) (commandsOf [.srsync])) = false := hrun
  rw [run_succ_of_exec 1 hpresented (exec_srinst hrunning seed),
    run_succ_of_exec (rest := []) 0 (by simp [commandsOf]) (exec_srsync (by simpa using hrunning))]
  exact ⟨_, rfl, rfl, exec_uenter_ok (by simpa using hrunning) rfl⟩

/-! ## BATINIT -/

theorem exec_batwr {s : State} (hrun : isHalted s = false) {k : BitVec 4} (hk : k.toNat < s.params.nBat)
    (upper lower : Word) :
    exec (.batwr k upper lower) s = ret (writeBat s k ⟨upper, lower⟩) .empty :=
  (unlessHalted_running hrun _).trans (checkBatIndex_present hk _)

/-- A running block that is presented BATCLR for each index of a list zeroes those pairs and no other. -/
theorem run_batClrs (is : List (BitVec 4)) {s : State} (hrun : isHalted s = false)
    (hin : s.inbox = commandsOf (is.flatMap batClr)) (his : ∀ i ∈ is, i.toNat < s.params.nBat) :
    ∃ t, Host.Core.run Sys2Proof.core is.length s = .next t ∧ t.params = s.params ∧ isHalted t = false ∧
      ∀ i, readBat t i = if i ∈ is then some ⟨0, 0⟩ else readBat s i := by
  induction is generalizing s with
  | nil => exact ⟨s, rfl, rfl, hrun, by simp⟩
  | cons k rest ih =>
    obtain ⟨hk, hrest⟩ := List.forall_mem_cons.mp his
    have hexec := exec_batwr ((isHalted_withInbox s (commandsOf (rest.flatMap batClr))).trans hrun) hk 0 0
    obtain ⟨t, hrunTo, hparams, hrunning, hread⟩ :=
      ih (s := respond (writeBat (withInbox s (commandsOf (rest.flatMap batClr))) k ⟨0, 0⟩) ⟨.ok, 0, some .empty⟩)
        hrun rfl hrest
    refine ⟨t, (run_succ_of_exec _ hin hexec).trans hrunTo, hparams, hrunning, fun i => ?_⟩
    rw [hread i, readBat_congr (respond_bat _ _), readBat_writeBat, readBat_congr (withInbox_bat s _)]
    by_cases hmem : i ∈ rest <;> by_cases hki : k = i <;> simp [hmem, hki, eq_comm]

/-- The first pair always exists, since N_BAT is at least 1 (00_scope.md R9). -/
theorem batIndices_eq_cons (p : Params) : ∃ rest, batIndices p = 0 :: rest := by
  obtain ⟨n, hn⟩ := Nat.exists_eq_add_one.mpr p.nBat_pos
  exact ⟨((List.range n).map Nat.succ).map (BitVec.ofNat 4), by simp [batIndices, hn, List.range_succ_eq_map]⟩

/-- BATFREE on a running block whose pair 0 is free stops there (42_bat.md R136). -/
theorem exec_batfree_first {s : State} (hrun : isHalted s = false) {p : BatPair} (hbat : readBat s 0 = some p)
    (hfree : isFree p = true) : exec .batfree s = answerOk s (.batIndex 1 (some 0)) := by
  obtain ⟨rest, hindices⟩ := batIndices_eq_cons s.params
  rw [show exec .batfree s = _ from unlessHalted_running hrun _, hindices, scanBats, withBat_written hbat, if_pos hfree]
  rfl

/-- Settles O57: after reset no fault is recorded, so each BATCLR writes its pair, and pair 0 is then free. -/
theorem batInitFreesEveryPair : Obligations.BatInitFreesEveryPair := by
  unfold Obligations.BatInitFreesEveryPair
  intro p
  obtain ⟨t, hrunTo, -, hrunning, hbats⟩ := run_batClrs (batIndices p)
    (s := present (State.resetWith p) (batInit p)) rfl rfl fun i hi => (mem_batIndices p i).mp hi
  have hcount : (batIndices p).length = p.nBat := by simp [batIndices]
  rw [hcount] at hrunTo
  have hread : ∀ i : BitVec 4, i.toNat < p.nBat → readBat t i = some ⟨0, 0⟩ :=
    fun i hi => (hbats i).trans (if_pos ((mem_batIndices p i).mpr hi))
  exact ⟨t, hrunTo, hread, exec_batfree_first hrunning (hread 0 p.nBat_pos) (by decide)⟩

end Sys2Proof.Machine
end

section
/-! SUPPORT. The VSID mapper's two commands (40_vsid.md): each answers from its ports alone, so what remains is to write the
model's arithmetic as the rules do. -/

namespace Sys2Proof.Machine

/-- A command whose meaning checks for a halted block and goes on with `body` does what `body` says. -/
theorem does_of_unlessHalted {i : Instr} {word : Word} {s : State} {body : Result} (hword : (encode i).word = word)
    (hexec : exec i s = unlessHalted s body) : Does i word s body := by
  refine ⟨hword, hexec.trans ?_⟩
  rcases unlessHalted_cases s body with ⟨hhalt, heq⟩ | ⟨hrun, heq⟩
  · rw [heq, if_pos hhalt, answerNot]
  · rw [heq, if_neg (by simp [hrun])]

/-- The first form of R100, which the model writes as `ctx * 0x3810`. -/
theorem vsidOf_eq (ctx : Word) (seg : BitVec 4) :
    vsidOf ctx seg = BitVec.ofNat 24 (ctx.toNat * 897 * 16 + seg.toNat * 0x111) := by
  rw [vsidOf, Nat.mul_assoc]

/-- The top four bits of an address are its quotient by 2^28, with nothing to cut off. -/
theorem segmentOf_toNat (ea : Word) : (segmentOf ea).toNat = ea.toNat / 2 ^ 28 := by
  rw [segmentOf, toNat_field]
  omega

theorem segmentOf_eq (ea : Word) : segmentOf ea = BitVec.ofNat 4 (ea.toNat / 2 ^ 28) := by
  rw [← segmentOf_toNat, BitVec.ofNat_toNat, BitVec.setWidth_eq]

/-- Settles O1: the command answers the model's VSID, which is the rule's sum. -/
theorem vsidAnswersSkewedSum : Obligations.VsidAnswersSkewedSum := by
  unfold Obligations.VsidAnswersSkewedSum
  intro ctx seg s
  rw [← vsidOf_eq]
  exact does_of_unlessHalted (show commandWord 0x01 0 = _ by decide) rfl

/-- Settles O2: the command answers the VSID of the segment it cuts out of the address, and that segment. -/
theorem vsideaUsesTopFourAddressBits : Obligations.VsideaUsesTopFourAddressBits := by
  unfold Obligations.VsideaUsesTopFourAddressBits
  intro ctx ea s
  rw [← segmentOf_eq, ← segmentOf_toNat]
  exact does_of_unlessHalted (show commandWord 0x02 0 = _ by decide) rfl

end Sys2Proof.Machine
end

section
/-! SUPPORT. The page-table entry codec's commands (41_pte_codec.md): the words PTEENC packs as an or of shifted fields, the
fields PTEDEC cuts out as numbers, and the checks each of them makes before it answers. -/

namespace Sys2Proof.Machine

/-! ## PPCHK -/

/-- The table of R119 by key and then by PP, written as the rule's two rows. -/
theorem rightsOf_eq_table (pp : BitVec 2) (key : BitVec 1) :
    rightsOf pp key = ([[2, 2, 2, 1], [0, 1, 2, 1]].getD key.toNat []).getD pp.toNat 3 := by
  revert pp key
  decide

/-- Settles O8: the command answers the model's rights, which are the table's entry. -/
theorem ppchkFollowsProtectionTable : Obligations.PpchkFollowsProtectionTable := by
  unfold Obligations.PpchkFollowsProtectionTable
  intro pp key s
  rw [← rightsOf_eq_table]
  exact does_of_unlessHalted (show commandWord 0x12 0 = _ by decide) rfl

/-! ## PTEENC: the checks -/

/-- With EXT_PHYS, or with XPN zero, the check of XPN refuses nothing (41_pte_codec.md R115, R116). -/
theorem xpnCheck_passes {extPhys : Bool} {xpnZero : Prop} (h : extPhys = true ∨ xpnZero) :
    ¬(extPhys = false ∧ ¬xpnZero) := by
  rintro ⟨rfl, hxpn⟩
  exact h.elim Bool.false_ne_true hxpn

theorem firstTooWide_eq_none {fields : List (Word × Nat)} (hfit : ∀ f ∈ fields, f.1.toNat < 2 ^ f.2) (k : Nat) :
    firstTooWide k fields = none := by
  induction fields generalizing k with
  | nil => rfl
  | cons f rest ih =>
    obtain ⟨hf, hrest⟩ := List.forall_mem_cons.mp hfit
    rw [firstTooWide, if_neg (Nat.not_le.mpr hf)]
    exact ih hrest (k + 1)

theorem firstTooWide_eq_some {fields : List (Word × Nat)} {j : Nat} {x : Word} {width : Nat}
    (hget : fields[j]? = some (x, width)) (hwide : 2 ^ width ≤ x.toNat)
    (hfirst : ∀ i y u, i < j → fields[i]? = some (y, u) → y.toNat < 2 ^ u) (k : Nat) :
    firstTooWide k fields = some (k + j) := by
  induction fields generalizing j k with
  | nil => cases hget
  | cons f rest ih =>
    cases j with
    | zero =>
      obtain rfl : f = (x, width) := Option.some.inj hget
      rw [firstTooWide, if_pos hwide, Nat.add_zero]
    | succ j =>
      have hf : f.1.toNat < 2 ^ f.2 := hfirst 0 f.1 f.2 j.succ_pos rfl
      rw [firstTooWide, if_neg (Nat.not_le.mpr hf),
        ih hget (fun i y u hi => hfirst (i + 1) y u (Nat.succ_lt_succ hi)), Nat.add_right_comm, Nat.add_assoc]

/-! ## PTEENC: the words -/

/-- Word 0 with each field shifted to its place (41_pte_codec.md R112). -/
theorem pteWord0_eq_or (f : PteFields) :
    pteWord0 f = (portsOfFields f).v <<< 31 ||| (portsOfFields f).vsid <<< 7 ||| (portsOfFields f).h <<< 6 |||
      (portsOfFields f).api := by
  rw [← BitVec.setWidth_eq (pteWord0 f)]
  simp only [pteWord0, portsOfFields, BitVec.setWidth_append_eq_shiftLeft_setWidth_or, BitVec.shiftLeft_or_distrib,
    ← BitVec.shiftLeft_add]

/-- Word 1 with each field shifted to its place and nothing at the reserved bit (41_pte_codec.md R113). -/
theorem pteWord1_eq_or (f : PteFields) :
    pteWord1 f = (portsOfFields f).rpn <<< 12 ||| (portsOfFields f).xpn <<< 9 ||| (portsOfFields f).r <<< 8 |||
      (portsOfFields f).c <<< 7 ||| (portsOfFields f).w <<< 6 ||| (portsOfFields f).i <<< 5 ||| (portsOfFields f).m <<< 4 |||
      (portsOfFields f).g <<< 3 ||| (portsOfFields f).pp := by
  rw [← BitVec.setWidth_eq (pteWord1 f)]
  simp only [pteWord1, portsOfFields, BitVec.setWidth_append_eq_shiftLeft_setWidth_or, BitVec.shiftLeft_or_distrib,
    ← BitVec.shiftLeft_add, BitVec.setWidth_zero, BitVec.or_zero]

/-- Narrowing a value that fits a width loses nothing. -/
theorem setWidth_setWidth_of_fits {x : Word} {width : Nat} (h : x.toNat < 2 ^ width) :
    (x.setWidth width).setWidth 32 = x := by
  refine BitVec.eq_of_toNat_eq ?_
  rw [BitVec.toNat_setWidth, BitVec.toNat_setWidth, Nat.mod_eq_of_lt h, Nat.mod_eq_of_lt x.isLt]

theorem portsOfFields_pteNarrow {p : PtePorts} (hfit : ∀ f ∈ pteChecks p, f.1.toNat < 2 ^ f.2) :
    portsOfFields (pteNarrow p) = p := by
  have hport : ∀ f ∈ pteChecks p, (f.1.setWidth f.2).setWidth 32 = f.1 :=
    fun f hf => setWidth_setWidth_of_fits (hfit f hf)
  simp only [pteChecks, List.forall_mem_cons] at hport
  simp only [portsOfFields, pteNarrow, hport]

/-! ## PTEENC: the command -/

theorem does_pteenc_of_tooWide {p : PtePorts} {k : Nat} (h : firstTooWide 0 (pteChecks p) = some k) (s : State) :
    Does (.pteenc p) 0x10000000 s (answerNot s .encRange k) :=
  does_of_unlessHalted (show commandWord 0x10 0 = _ by decide) (by simp only [exec, execPteenc, h]; rfl)

theorem does_pteenc_of_fits {p : PtePorts} (h : firstTooWide 0 (pteChecks p) = none) (s : State) :
    Does (.pteenc p) 0x10000000 s
      (if s.params.extPhys = false ∧ p.xpn ≠ 0 then answerNot s .encRange 5
        else answerOk s (.pteWords (pteWord0 (pteNarrow p)) (pteWord1 (pteNarrow p)))) :=
  does_of_unlessHalted (show commandWord 0x10 0 = _ by decide) (by simp only [exec, execPteenc, h]; rfl)

/-- Settles O5: the checks find the first field that is too wide, and fields that all fit are packed whole. -/
theorem pteencChecksWidthsThenPacks : Obligations.PteencChecksWidthsThenPacks := by
  unfold Obligations.PteencChecksWidthsThenPacks
  intro p s fields hfields
  obtain rfl : fields = pteChecks p := hfields
  refine ⟨fun k x width hget hwide hfirst => ?_, fun hfit hext hxpn => ?_, fun hfit hmode => ?_⟩
  · have hk := firstTooWide_eq_some hget hwide hfirst 0
    rw [Nat.zero_add] at hk
    exact does_pteenc_of_tooWide hk s
  · have hdoes := does_pteenc_of_fits (firstTooWide_eq_none hfit 0) s
    rwa [if_pos ⟨hext, hxpn⟩] at hdoes
  · have hdoes := does_pteenc_of_fits (firstTooWide_eq_none hfit 0) s
    rwa [if_neg (xpnCheck_passes hmode), pteWord0_eq_or, pteWord1_eq_or, portsOfFields_pteNarrow hfit] at hdoes

/-! ## PTEDEC -/

theorem does_ptedec (w0 w1 : Word) (s : State) :
    Does (.ptedec w0 w1) 0x11000000 s
      (if pteReserved w1 ≠ 0 then answerNot s .decReserved 2
        else if s.params.extPhys = false ∧ (pteSplit w0 w1).xpn ≠ 0 then answerNot s .decReserved 11
        else answerOk s (.pteFields (pteSplit w0 w1) (ppnOf (pteSplit w0 w1)))) :=
  does_of_unlessHalted (show commandWord 0x11 0 = _ by decide) rfl

theorem pteReserved_eq_zero_iff (w1 : Word) : pteReserved w1 = 0 ↔ w1.getLsbD 2 = false := by
  rw [BitVec.getLsbD_eq_extractLsb', ← pteReserved, beq_eq_false_iff_ne]
  generalize pteReserved w1 = b
  revert b
  decide

theorem pteSplit_xpn_toNat (w0 w1 : Word) : (pteSplit w0 w1).xpn.toNat = w1.toNat / 2 ^ 9 % 2 ^ 3 := toNat_field w1 9 3

theorem pteSplit_xpn_eq_zero_iff (w0 w1 : Word) : (pteSplit w0 w1).xpn = 0 ↔ w1.toNat / 2 ^ 9 % 2 ^ 3 = 0 := by
  rw [← pteSplit_xpn_toNat w0 w1]
  exact BitVec.toNat_inj.symm

/-- The leading field of a word is a quotient, with nothing to cut off. -/
theorem toNat_leading_field (x : Word) {start len : Nat} (h : start + len = 32) :
    (x.extractLsb' start len).toNat = x.toNat / 2 ^ start := by
  rw [toNat_field, Nat.mod_eq_of_lt]
  rw [Nat.div_lt_iff_lt_mul (Nat.two_pow_pos start), ← Nat.pow_add, Nat.add_comm, h]
  exact x.isLt

/-- The trailing field of a word is a remainder, with nothing to shift away. -/
theorem toNat_trailing_field (x : Word) (len : Nat) : (x.extractLsb' 0 len).toNat = x.toNat % 2 ^ len := by
  rw [toNat_field, Nat.pow_zero, Nat.div_one]

/-- XPN above RPN, as a number (41_pte_codec.md R114). -/
theorem ppnOf_eq (f : PteFields) : ppnOf f = BitVec.ofNat 23 (f.xpn.toNat * 2 ^ 20 + f.rpn.toNat) := by
  rw [← Nat.shiftLeft_eq, Nat.shiftLeft_add_eq_or_of_lt f.rpn.isLt, ← BitVec.toNat_append, BitVec.ofNat_toNat,
    BitVec.setWidth_eq, ppnOf]

theorem ppnOf_pteSplit (w0 w1 : Word) :
    ppnOf (pteSplit w0 w1) = BitVec.ofNat 23 (w1.toNat / 2 ^ 9 % 2 ^ 3 * 2 ^ 20 + w1.toNat / 2 ^ 12) := by
  rw [ppnOf_eq, pteSplit_xpn_toNat, show (pteSplit w0 w1).rpn.toNat = _ from toNat_leading_field w1 rfl]

/-- Settles O6: the checks read the reserved bit and XPN of word 1, and each field is cut out at its place. -/
theorem ptedecChecksReservedThenSplits : Obligations.PtedecChecksReservedThenSplits := by
  unfold Obligations.PtedecChecksReservedThenSplits
  intro w0 w1 s
  have hdoes := does_ptedec w0 w1 s
  simp only [ne_eq, pteReserved_eq_zero_iff, pteSplit_xpn_eq_zero_iff, ppnOf_pteSplit] at hdoes
  refine ⟨fun hrsv => ?_, fun hrsv hext hxpn => ?_, fun hrsv hmode => ⟨pteSplit w0 w1, ?_, ?_, ?_⟩⟩
  · rwa [if_pos (ne_false_of_eq_true hrsv)] at hdoes
  · rwa [if_neg (not_not.mpr hrsv), if_pos ⟨hext, hxpn⟩] at hdoes
  · exact ⟨toNat_leading_field w0 rfl, toNat_field w0 7 24, toNat_field w0 6 1, toNat_trailing_field w0 6⟩
  · exact ⟨toNat_leading_field w1 rfl, toNat_field w1 9 3, toNat_field w1 8 1, toNat_field w1 7 1, toNat_field w1 6 1,
      toNat_field w1 5 1, toNat_field w1 4 1, toNat_field w1 3 1, toNat_trailing_field w1 2⟩
  · rwa [if_neg (not_not.mpr hrsv), if_neg (xpnCheck_passes hmode)] at hdoes

end Sys2Proof.Machine
end

section
/-! SUPPORT. BAT block sizes (42_bat.md R130 to R132) and the upper word that carries a size's code (R142): BATSIZE, BATUENC,
and that BATUENC accepts what BATSIZE answers. -/

namespace Sys2Proof.Machine

/-! ## Size codes -/

theorem sizeCode_two_pow {k : Nat} (hk : 17 ≤ k) : sizeCode (2 ^ k) = 2 ^ (k - 17) - 1 := by
  rw [sizeCode, Nat.pow_div hk (by decide)]

theorem codeSize_sizeCode {k : Nat} (hk : 17 ≤ k) : codeSize (sizeCode (2 ^ k)) = 2 ^ k := by
  rw [sizeCode_two_pow hk, codeSize, Nat.sub_add_cancel Nat.one_le_two_pow, ← Nat.pow_add, Nat.sub_add_cancel hk]

theorem legalCode_iff (code : Nat) : legalCode code = true ↔ ∃ j, j ≤ 11 ∧ code = 2 ^ j - 1 := by
  simp only [legalCode, List.any_eq_true, List.mem_range, beq_iff_eq, Nat.lt_succ_iff]

/-- Settles O60: the exponent of a size less 17 is the number of ones in its code, so the sizes give the legal codes. -/
theorem sizeCodesAreTheTwelveMasks : Obligations.SizeCodesAreTheTwelveMasks := by
  unfold Obligations.SizeCodesAreTheTwelveMasks
  refine ⟨fun k hk _ => ⟨sizeCode_two_pow hk, codeSize_sizeCode hk⟩, fun code => ?_⟩
  rw [legalCode_iff]
  constructor
  · rintro ⟨j, hj, rfl⟩
    exact ⟨j + 17, by omega, by omega, by rw [sizeCode_two_pow (by omega), Nat.add_sub_cancel]⟩
  · rintro ⟨k, hk, hk28, rfl⟩
    exact ⟨k - 17, by omega, sizeCode_two_pow hk⟩

/-! ## BATSIZE -/

theorem le_blockExponent_iff {len j : Nat} (hlen : len ≠ 0) : j ≤ blockExponent len ↔ j ≤ 28 ∧ 2 ^ j ≤ len := by
  rw [blockExponent, le_min_iff, Nat.le_log2 hlen]

theorem does_batsize {base top : PhysAddr} {k : Nat} (hk : blockExponent (top.toNat - base.toNat) = k) (s : State) :
    Does (.batsize base top) 0x20000000 s
      (if base.toNat > top.toNat then answerNot s .rangeOrder 0
        else if top.toNat - base.toNat < 2 ^ 17 then answerNot s .noSize 0
        else answerOk s (.batSize (BitVec.ofNat 29 (2 ^ k)) (BitVec.ofNat 11 (sizeCode (2 ^ k)))
          (if base.toNat % 2 ^ k = 0 then 1 else 0))) :=
  does_of_unlessHalted (show commandWord 0x20 0 = _ by decide) (hk ▸ rfl)

/-- Settles O9: the size's exponent is the model's, which bounds every exponent that fits the length. -/
theorem batsizeTakesLargestSize : Obligations.BatsizeTakesLargestSize := by
  unfold Obligations.BatsizeTakesLargestSize
  intro base top s
  have hdoes := does_batsize (base := base) (top := top) rfl s
  refine ⟨fun hlt => ?_, fun hle hshort => ?_, fun hle hlong => ?_⟩
  · rwa [if_pos hlt] at hdoes
  · rwa [if_neg (Nat.not_lt.mpr hle), if_pos hshort] at hdoes
  · have hk := fun j => le_blockExponent_iff (j := j) (show top.toNat - base.toNat ≠ 0 by omega)
    obtain ⟨hk28, hfits⟩ := (hk _).mp le_rfl
    have hk17 := (hk 17).mpr ⟨by decide, hlong⟩
    rw [if_neg (Nat.not_lt.mpr hle), if_neg (Nat.not_lt.mpr hlong), sizeCode_two_pow hk17] at hdoes
    exact ⟨_, hk17, hk28, hfits, fun j _ hj hjlen => (hk j).mpr ⟨hj, hjlen⟩, hdoes⟩

/-! ## BATUENC -/

theorem does_batuenc (ea code : Word) (vs vp : BitVec 1) (s : State) :
    Does (.batuenc ea code vs vp) 0x24000000 s
      (if legalCode code.toNat = false then answerNot s .encRange 1
        else if ea.toNat % codeSize code.toNat ≠ 0 then answerNot s .encAlign 0
        else answerOk s (.batUpper (upperWord ea code vs vp))) :=
  does_of_unlessHalted (show commandWord 0x24 0 = _ by decide) rfl

/-- Settles O15: the legal codes are the twelve masks, and the size of one is the multiple that `ea` must be of. -/
theorem batuencChecksThenComposes : Obligations.BatuencChecksThenComposes := by
  unfold Obligations.BatuencChecksThenComposes
  intro ea code vs vp s
  have hdoes := does_batuenc ea code vs vp s
  rw [codeSize] at hdoes
  have hlegal : ∀ j, j ≤ 11 → code.toNat = 2 ^ j - 1 → ¬legalCode code.toNat = false := fun j hj hcode =>
    ne_false_of_eq_true ((legalCode_iff _).mpr ⟨j, hj, hcode⟩)
  refine ⟨fun hnone => ?_, fun j hj hcode hea => ?_, fun j hj hcode hea => ?_⟩
  · have hillegal : legalCode code.toNat = false := Bool.eq_false_iff.mpr fun h => by
      obtain ⟨j, hj, hcode⟩ := (legalCode_iff _).mp h
      exact hnone j hj hcode
    rwa [if_pos hillegal] at hdoes
  · rwa [if_neg (hlegal j hj hcode), if_pos hea] at hdoes
  · rwa [if_neg (hlegal j hj hcode), if_neg (not_not.mpr hea)] at hdoes

/-! ## BATSIZE before BATUENC -/

/-- On a running block a command answers what `Does` says of it. -/
theorem Does.exec_running {i : Instr} {word : Word} {s : State} {answer : Result} (h : Does i word s answer)
    (hrun : isHalted s = false) : exec i s = answer := by
  rw [h.2, if_neg (by simp [hrun])]

theorem answerNot_ne_answerOk (s t : State) (status : Status) (info : Nat) (results : Results) :
    answerNot s status info ≠ answerOk t results := by
  simp [answerNot, answerOk]

/-- What BATSIZE answers when it is OK: one of the twelve sizes, and the code of it (42_bat.md R132). -/
theorem batsize_ok {base top : PhysAddr} {size : BitVec 29} {code : BitVec 11} {aligned : BitVec 1} {s : State}
    (hrun : isHalted s = false) (h : exec (.batsize base top) s = answerOk s (.batSize size code aligned)) :
    ∃ k, 17 ≤ k ∧ k ≤ 28 ∧ size.toNat = 2 ^ k ∧ code.toNat = 2 ^ (k - 17) - 1 := by
  obtain ⟨horder, hshort, hlong⟩ := batsizeTakesLargestSize base top s
  rcases Nat.lt_or_ge top.toNat base.toNat with hlt | hle
  · exact absurd (((horder hlt).exec_running hrun).symm.trans h) (answerNot_ne_answerOk _ _ _ _ _)
  rcases Nat.lt_or_ge (top.toNat - base.toNat) (2 ^ 17) with hlen | hlen
  · exact absurd (((hshort hle hlen).exec_running hrun).symm.trans h) (answerNot_ne_answerOk _ _ _ _ _)
  obtain ⟨k, hk17, hk28, -, -, hdoes⟩ := hlong hle hlen
  have hanswer := (hdoes.exec_running hrun).symm.trans h
  simp only [answerOk, Host.Outcome.next.injEq, State.mk.injEq, Option.some.injEq, Response.mk.injEq,
    Results.batSize.injEq, true_and] at hanswer
  obtain ⟨rfl, rfl, -⟩ := hanswer
  have hsize : 2 ^ k < 2 ^ 29 := Nat.pow_lt_pow_right (by decide) (by omega)
  have hcode : 2 ^ (k - 17) ≤ 2 ^ 11 := Nat.pow_le_pow_right (by decide) (by omega)
  exact ⟨k, hk17, hk28, Nat.mod_eq_of_lt hsize, Nat.mod_eq_of_lt (by omega)⟩

/-- Settles O19: the code BATSIZE answers is a mask, and its size is the size BATSIZE answers with it. -/
theorem batuencAcceptsBatsizeCode : Obligations.BatuencAcceptsBatsizeCode := by
  unfold Obligations.BatuencAcceptsBatsizeCode
  intro base top size code aligned ea vs vp s hrun h hea
  obtain ⟨k, hk17, hk28, hsize, hcode⟩ := batsize_ok hrun h
  have hword : (code.setWidth 32).toNat = 2 ^ (k - 17) - 1 := by
    rw [BitVec.toNat_setWidth, Nat.mod_eq_of_lt (by omega), hcode]
  have haligned : ea.toNat % codeSize (code.setWidth 32).toNat = 0 := by
    rwa [hword, ← sizeCode_two_pow hk17, codeSize_sizeCode hk17, ← hsize]
  obtain ⟨-, -, hok⟩ := batuencChecksThenComposes ea (code.setWidth 32) vs vp s
  exact ⟨_, (hok (k - 17) (by omega) hword haligned).exec_running hrun⟩

end Sys2Proof.Machine
end

section
/-! SUPPORT. The commands on the BAT pairs: the scan of BATFREE (42_bat.md R135 to R137), and BATWR and BATRD (R145, R146). -/

namespace Sys2Proof.Machine

/-! ## BATFREE -/

theorem does_batfree (s : State) : Does .batfree 0x21000000 s (scanBats s (batIndices s.params)) :=
  does_of_unlessHalted (show commandWord 0x21 0 = _ by decide) rfl

theorem isFree_eq (p : BatPair) : isFree p = decide (p.upper.toNat % 4 = 0) := by
  rw [Bool.eq_iff_iff, isFree, beq_iff_eq, ← BitVec.toNat_inj, toNat_trailing_field, decide_eq_true_iff]
  rfl

/-- The scan meets the pairs below an existing pair before it. -/
theorem batIndices_split {p : Params} {i : BitVec 4} (hi : i.toNat < p.nBat) :
    ∃ front back, batIndices p = front ++ i :: back ∧ ∀ j ∈ front, j.toNat < i.toNat := by
  obtain ⟨n, hn⟩ := Nat.exists_eq_add_of_lt hi
  refine ⟨(List.range i.toNat).map (BitVec.ofNat 4),
    (((List.range n).map Nat.succ).map (i.toNat + ·)).map (BitVec.ofNat 4), ?_, fun j hj => ?_⟩
  · rw [batIndices, hn, Nat.add_assoc, List.range_add, List.map_append, List.range_succ_eq_map, List.map_cons,
      List.map_cons, Nat.add_zero, BitVec.ofNat_toNat, BitVec.setWidth_eq]
  · obtain ⟨n, hn, rfl⟩ := List.mem_map.mp hj
    have hlt := List.mem_range.mp hn
    rwa [BitVec.toNat_ofNat, Nat.mod_eq_of_lt (by omega)]

/-- When every pair below an existing pair `i` is written and taken, the scan comes to `i`. -/
theorem scanBats_reaches {s : State} {i : BitVec 4} (hi : i.toNat < s.params.nBat)
    (htaken : ∀ j : BitVec 4, j.toNat < i.toNat → ∃ q, readBat s j = some q ∧ q.upper.toNat % 4 ≠ 0) :
    ∃ back, scanBats s (batIndices s.params) = scanBats s (i :: back) := by
  obtain ⟨front, back, hsplit, hfront⟩ := batIndices_split hi
  refine ⟨back, hsplit ▸ scanBats_skip front (i :: back) fun j hj => ?_⟩
  simpa [isFree_eq] using htaken j (hfront j hj)

/-- Settles O10: the scan passes over the written pairs that are taken, and what it does at the next index decides. -/
theorem batfreeStopsAtFirstFreePair : Obligations.BatfreeStopsAtFirstFreePair := by
  unfold Obligations.BatfreeStopsAtFirstFreePair
  intro s
  have hdoes := does_batfree s
  refine ⟨fun i p hi hread hfree htaken => ?_, fun i hi hread htaken => ?_, fun htaken => ?_⟩
  · obtain ⟨back, hscan⟩ := scanBats_reaches hi htaken
    rwa [hscan, scanBats, withBat_written hread, if_pos (by simpa [isFree_eq] using hfree)] at hdoes
  · obtain ⟨back, hscan⟩ := scanBats_reaches hi htaken
    rwa [hscan, scanBats, withBat_unwritten hread] at hdoes
  · have hscan := scanBats_skip (s := s) (batIndices s.params) [] fun j hj => by
      simpa [isFree_eq] using htaken j ((mem_batIndices _ _).mp hj)
    rwa [← List.append_nil (batIndices s.params), hscan] at hdoes

/-- The outcomes `a` at state `s` and `b` at state `t` show one and the same response and fault set, and leave all else of their
own state. -/
def SameAnswerAndFaults (s t : State) (a b : Result) : Prop :=
  ∃ (f : FaultSet) (r : Response),
    a = .next { s with faults := f, response := some r } ∧ b = .next { t with faults := f, response := some r }

namespace SameAnswerAndFaults

variable {s t : State}

theorem of_sameAnswer (hf : s.faults = t.faults) {a b : Result} (h : SameAnswer s t a b) : SameAnswerAndFaults s t a b := by
  obtain ⟨r, rfl, rfl⟩ := h
  exact ⟨s.faults, r, rfl, by rw [hf]⟩

theorem takeFault (hf : s.faults = t.faults) (reason : FaultReason) (info : Nat) :
    SameAnswerAndFaults s t (takeFault s reason info) (takeFault t reason info) :=
  ⟨addFault s.faults reason, _, rfl, by rw [hf, takeFault_eq]⟩

/-- The scan looks at no more of a pair than whether it is written, and at its upper word. -/
theorem scanBats (hf : s.faults = t.faults) (hupper : ∀ i, (readBat s i).map (·.upper) = (readBat t i).map (·.upper))
    (is : List (BitVec 4)) : SameAnswerAndFaults s t (scanBats s is) (scanBats t is) := by
  induction is with
  | nil => exact of_sameAnswer hf (.ret _)
  | cons i rest ih =>
    have hi := hupper i
    rw [Machine.scanBats, Machine.scanBats]
    cases hs : readBat s i with
    | none =>
      have ht : readBat t i = none := by simpa [hs, eq_comm] using hi
      rw [withBat_unwritten hs, withBat_unwritten ht]
      exact takeFault hf _ _
    | some p =>
      obtain ⟨q, ht, hpq⟩ : ∃ q, readBat t i = some q ∧ q.upper = p.upper := by simpa [hs, eq_comm] using hi
      rw [withBat_written hs, withBat_written ht, isFree, isFree, hpq]
      split
      · exact of_sameAnswer hf (.ret _)
      · exact ih

end SameAnswerAndFaults

/-- Settles O11: both blocks are halted or neither is, and the scan over the same indices sees no lower word. -/
theorem batfreeIgnoresLowerWords : Obligations.BatfreeIgnoresLowerWords := by
  unfold Obligations.BatfreeIgnoresLowerWords
  intro s t hp hf hupper
  change SameAnswerAndFaults s t (unlessHalted s _) (unlessHalted t _)
  have hhalted : isHalted s = isHalted t := by rw [isHalted, isHalted, hf]
  rcases unlessHalted_cases s (scanBats s (batIndices s.params)) with ⟨hhalt, -⟩ | ⟨hrun, -⟩
  · exact .of_sameAnswer hf ⟨_, unlessHalted_halted hhalt _, unlessHalted_halted (hhalted ▸ hhalt) _⟩
  · rw [unlessHalted_running hrun, unlessHalted_running (hhalted ▸ hrun), hp]
    exact .scanBats hf hupper _

/-! ## BATWR and BATRD -/

theorem does_batwr (i : BitVec 4) (upper lower : Word) (s : State) :
    Does (.batwr i upper lower) (0x28000000 ||| i.setWidth 32) s
      (checkBatIndex s i (answerOk (writeBat s i ⟨upper, lower⟩) .empty)) :=
  does_of_unlessHalted (commandWord_eq 0x28 i) rfl

theorem does_batrd (i : BitVec 4) (s : State) :
    Does (.batrd i) (0x29000000 ||| i.setWidth 32) s
      (checkBatIndex s i (withBat s i fun p => answerOk s (.batPair p.upper p.lower))) :=
  does_of_unlessHalted (commandWord_eq 0x29 i) rfl

/-- Settles O20: the index is checked, and the write is that of one pair. -/
theorem batwrWritesOnePair : Obligations.BatwrWritesOnePair := by
  unfold Obligations.BatwrWritesOnePair
  intro i upper lower s
  have hdoes := does_batwr i upper lower s
  refine ⟨fun habsent => ?_, fun hpresent => ⟨writeBat s i ⟨upper, lower⟩, ?_, ?_, fun j hj => ?_, rfl, rfl, rfl, rfl, rfl⟩⟩
  · rwa [checkBatIndex_absent habsent] at hdoes
  · rwa [checkBatIndex_present hpresent] at hdoes
  · rw [readBat_writeBat, if_pos rfl]
  · rw [readBat_writeBat, if_neg hj.symm]

/-- Settles O21: the index is checked, and then whether the pair is written. -/
theorem batrdAnswersThePair : Obligations.BatrdAnswersThePair := by
  unfold Obligations.BatrdAnswersThePair
  intro i s
  have hdoes := does_batrd i s
  refine ⟨fun habsent => ?_, fun hpresent hread => ?_, fun p hpresent hread => ?_⟩
  · rwa [checkBatIndex_absent habsent] at hdoes
  · rwa [checkBatIndex_present hpresent, withBat_unwritten hread] at hdoes
  · rwa [checkBatIndex_present hpresent, withBat_written hread] at hdoes

end Sys2Proof.Machine
end

section
/-! SUPPORT. Physical addresses in a BAT (42_bat.md R138 to R141) and the lower word that holds one (R143): BATPENC, BATPDEC and
BATLENC. -/

namespace Sys2Proof.Machine

/-- A word is the one of its number. -/
theorem eq_ofNat_of_toNat {w n : Nat} {x : BitVec w} (h : x.toNat = n) : x = BitVec.ofNat w n := by
  rw [← h, BitVec.ofNat_toNat, BitVec.setWidth_eq]

/-- The mask of bits 17:1 (42_bat.md R139). -/
theorem and_extMask (n : Nat) : n &&& 0x3FFFE = n / 2 % 2 ^ 17 * 2 := by
  have hhigh : (n &&& 0x3FFFE) / 2 = n / 2 % 2 ^ 17 := Nat.and_div_two.trans (Nat.and_two_pow_sub_one_eq_mod _ 17)
  have hlow : (n &&& 0x3FFFE) % 2 = 0 := (Nat.and_mod_two_pow (n := 1)).trans (Nat.and_zero _)
  omega

/-! ## BATPENC -/

theorem enc32_eq (pa : PhysAddr) : enc32 pa = BitVec.ofNat 32 pa.toNat := (BitVec.ofNat_toNat 32 pa).symm

theorem encX_eq {pa : PhysAddr} (hpa : pa.toNat < 2 ^ 34) :
    encX pa = BitVec.ofNat 32 (pa.toNat / 2 ^ 17 * 2 + pa.toNat / 2 ^ 32 % 2) := by
  have hfield : pa.toNat >>> 16 &&& 0x3FFFE = pa.toNat / 2 ^ 17 * 2 := by
    rw [and_extMask, Nat.shiftRight_eq_div_pow]
    omega
  have hbit : pa.toNat >>> 32 &&& 1 = pa.toNat / 2 ^ 32 % 2 := by
    rw [Nat.and_one_is_mod, Nat.shiftRight_eq_div_pow]
  rw [encX, ← BitVec.ofNat_toNat, BitVec.toNat_or, BitVec.toNat_and, BitVec.toNat_and, BitVec.toNat_ushiftRight,
    BitVec.toNat_ushiftRight]
  change BitVec.ofNat 32 (pa.toNat >>> 16 &&& 0x3FFFE ||| pa.toNat >>> 32 &&& 1) = _
  rw [hfield, hbit, or_eq_add_of_aligned 1 (by omega) (by omega)]

theorem encodeBatPa_of_range {extPhys : Bool} {pa : PhysAddr} (h : paLimit extPhys ≤ pa.toNat) :
    encodeBatPa extPhys pa = .error .encRange := if_pos h

theorem encodeBatPa_of_misaligned {extPhys : Bool} {pa : PhysAddr} (hlimit : pa.toNat < paLimit extPhys)
    (h : pa.toNat % 2 ^ 17 ≠ 0) : encodeBatPa extPhys pa = .error .encAlign := by
  rw [encodeBatPa, if_neg (Nat.not_le.mpr hlimit), if_pos h]

theorem encodeBatPa_of_aligned {extPhys : Bool} {pa : PhysAddr} (hlimit : pa.toNat < paLimit extPhys)
    (h : pa.toNat % 2 ^ 17 = 0) :
    encodeBatPa extPhys pa = .ok (BitVec.ofNat 32
      (if extPhys then pa.toNat / 2 ^ 17 * 2 + pa.toNat / 2 ^ 32 % 2 else pa.toNat)) := by
  rw [encodeBatPa, if_neg (Nat.not_le.mpr hlimit), if_neg (not_not.mpr h)]
  cases extPhys with
  | false => exact congrArg Except.ok (enc32_eq pa)
  | true => exact congrArg Except.ok (encX_eq hlimit)

theorem does_batpenc_error {pa : PhysAddr} {s : State} {status : Status}
    (h : encodeBatPa s.params.extPhys pa = .error status) :
    Does (.batpenc pa) 0x22000000 s (answerNot s status 0) :=
  does_of_unlessHalted (show commandWord 0x22 0 = _ by decide) (by simp only [exec, execBatpenc, h]; rfl)

theorem does_batpenc_ok {pa : PhysAddr} {s : State} {bits : Word} (h : encodeBatPa s.params.extPhys pa = .ok bits) :
    Does (.batpenc pa) 0x22000000 s (answerOk s (.batBits bits)) :=
  does_of_unlessHalted (show commandWord 0x22 0 = _ by decide) (by simp only [exec, execBatpenc, h]; rfl)

/-- Settles O12: the command answers what the encoding of the active mode gives. -/
theorem batpencEncodesOrRefuses : Obligations.BatpencEncodesOrRefuses := by
  unfold Obligations.BatpencEncodesOrRefuses
  intro pa s limit hlimit
  obtain rfl : limit = paLimit s.params.extPhys := hlimit
  exact ⟨fun hrange => does_batpenc_error (encodeBatPa_of_range hrange),
    fun hpa hmis => does_batpenc_error (encodeBatPa_of_misaligned hpa hmis),
    fun hpa haligned => does_batpenc_ok (encodeBatPa_of_aligned hpa haligned)⟩

/-! ## BATPDEC -/

theorem does_batpdec (bits : Word) (s : State) :
    Does (.batpdec bits) 0x23000000 s
      (if s.params.extPhys then
        if extFieldOk bits then answerOk s (.batPa (decX bits)) else answerNot s .decMalformed bits.toNat
      else answerOk s (.batPa (dec32 bits))) :=
  does_of_unlessHalted (show commandWord 0x23 0 = _ by decide) rfl

theorem extFieldOk_iff (bits : Word) :
    extFieldOk bits = true ↔ bits.toNat / 2 ^ 18 = 0 ∧ bits.toNat % 2 = bits.toNat / 2 ^ 16 % 2 := by
  rw [extFieldOk, Bool.and_eq_true, beq_iff_eq, beq_iff_eq, ← BitVec.toNat_inj, ← BitVec.toNat_inj,
    toNat_leading_field bits rfl, toNat_trailing_field, toNat_field]
  rfl

theorem decX_eq {bits : Word} (h : bits.toNat / 2 ^ 18 = 0) : decX bits = BitVec.ofNat 64 (bits.toNat / 2 * 2 ^ 17) := by
  apply eq_ofNat_of_toNat
  have hfield : (bits &&& 0x3FFFE).toNat = bits.toNat / 2 * 2 := by
    rw [BitVec.toNat_and]
    exact (and_extMask bits.toNat).trans (by omega)
  rw [decX, BitVec.toNat_shiftLeft, BitVec.toNat_setWidth, hfield, Nat.shiftLeft_eq]
  omega

/-- Settles O13: in the extended mode the two requirements of the field are those of the rule, and the field is unfolded. -/
theorem batpdecDecodesOrRefuses : Obligations.BatpdecDecodesOrRefuses := by
  unfold Obligations.BatpdecDecodesOrRefuses
  intro bits s
  have hdoes := does_batpdec bits s
  refine ⟨fun hext => ?_, fun hext hbad => ?_, fun hext hhigh hfold => ?_⟩
  · rwa [if_neg (by simp [hext]), eq_ofNat_of_toNat (dec32_toNat bits)] at hdoes
  · have hmalformed : ¬extFieldOk bits = true := fun h => by
      obtain ⟨hhigh, hfold⟩ := (extFieldOk_iff bits).mp h
      exact hbad.elim (· hhigh) (· hfold)
    rwa [if_pos hext, if_neg hmalformed] at hdoes
  · rwa [if_pos hext, if_pos ((extFieldOk_iff bits).mpr ⟨hhigh, hfold⟩), decX_eq hhigh] at hdoes

/-! ## BATLENC -/

theorem does_batlenc_extPhys {s : State} (hext : s.params.extPhys = true) (pa : PhysAddr) (wimg pp : Word) :
    Does (.batlenc pa wimg pp) 0x25000000 s (answerNot s .unsupported 0) :=
  does_of_unlessHalted (show commandWord 0x25 0 = _ by decide) (by simp only [exec, execBatlenc, hext]; rfl)

theorem does_batlenc_error {pa : PhysAddr} {s : State} {status : Status} (hext : s.params.extPhys = false)
    (h : encodeBatPa false pa = .error status) (wimg pp : Word) :
    Does (.batlenc pa wimg pp) 0x25000000 s (answerNot s status 0) :=
  does_of_unlessHalted (show commandWord 0x25 0 = _ by decide) (by simp only [exec, execBatlenc, hext, h]; rfl)

theorem does_batlenc_ok {pa : PhysAddr} {s : State} {field : Word} (hext : s.params.extPhys = false)
    (h : encodeBatPa false pa = .ok field) (wimg pp : Word) :
    Does (.batlenc pa wimg pp) 0x25000000 s
      (if wimg.toNat ≥ 16 then answerNot s .encRange 1
        else if pp.toNat ≥ 4 then answerNot s .encRange 2
        else answerOk s (.batLower (lowerWord field wimg pp))) :=
  does_of_unlessHalted (show commandWord 0x25 0 = _ by decide) (by simp only [exec, execBatlenc, hext, h]; rfl)

/-- Settles O17: after the mode and the address, which BATPENC's encoding checks, come WIMG and PP. -/
theorem batlencChecksThenComposes : Obligations.BatlencChecksThenComposes := by
  unfold Obligations.BatlencChecksThenComposes
  intro pa wimg pp s
  have hok := fun hext (hpa : pa.toNat < 2 ^ 32) haligned =>
    does_batlenc_ok (s := s) hext (encodeBatPa_of_aligned (extPhys := false) hpa haligned) wimg pp
  refine ⟨fun hext => does_batlenc_extPhys hext pa wimg pp,
    fun hext hrange => does_batlenc_error hext (encodeBatPa_of_range hrange) wimg pp,
    fun hext hpa hmis => does_batlenc_error hext (encodeBatPa_of_misaligned hpa hmis) wimg pp,
    fun hext hpa haligned hwimg => ?_, fun hext hpa haligned hwimg hpp => ?_, fun hext hpa haligned hwimg hpp => ?_⟩
  · have hdoes := hok hext hpa haligned
    rwa [if_pos hwimg] at hdoes
  · have hdoes := hok hext hpa haligned
    rwa [if_neg (Nat.not_le.mpr hwimg), if_pos hpp] at hdoes
  · have hdoes := hok hext hpa haligned
    rwa [if_neg (Nat.not_le.mpr hwimg), if_neg (Nat.not_le.mpr hpp)] at hdoes

end Sys2Proof.Machine
end

section
/-! SUPPORT. The commands on the segment registers and the barrier flag (43_segment_install.md): SRINST, SRWR, SRRD, SRSYNC and
UENTER, and the parameter a user ceiling gives. -/

namespace Sys2Proof.Machine

/-! ## The barrier flag after a segment-register write (10_state.md R30) -/

theorem noteSrWrite_sets {s : State} (h : s.params.syncRequired = true) : (noteSrWrite s).syncPending = true := by
  rw [noteSrWrite_syncPending, h, Bool.or_true]

theorem noteSrWrite_keeps {s : State} (h : s.params.syncRequired = false) : (noteSrWrite s).syncPending = s.syncPending := by
  rw [noteSrWrite_syncPending, h, Bool.or_false]

/-! ## SRINST -/

/-- The mask takes nothing from a seed it has already been applied to (43_segment_install.md R161). -/
theorem maskSeed_idem (seed : Word) : maskSeed (maskSeed seed) = maskSeed seed := by
  rw [maskSeed, maskSeed, BitVec.and_assoc, BitVec.and_self]

/-- The installer's values read the seed through the mask alone. -/
theorem installValue_maskSeed (seed : Word) : installValue (maskSeed seed) = installValue seed := by
  funext n
  rw [installValue, maskSeed_idem, ← installValue]

theorem installLog_maskSeed (p : Params) (seed : Word) : installLog p (maskSeed seed) = installLog p seed := by
  rw [installLog_eq, installLog_eq, installValue_maskSeed]

theorem does_srinst (seed : Word) (s : State) :
    Does (.srinst seed) 0x30000000 s (answerOk (noteSrWrite (writeSrs s (installLog s.params seed)))
      (.installed (BitVec.ofNat 5 s.params.numUserSegments) (installLog s.params seed))) :=
  does_of_unlessHalted (show commandWord 0x30 0 = _ by decide) rfl

/-- Settles O23: the log is the eligible slots in order, and each of its writes is that of one register. -/
theorem srinstInstallsEligibleSlots : Obligations.SrinstInstallsEligibleSlots := by
  unfold Obligations.SrinstInstallsEligibleSlots
  intro seed s
  have hread (n : BitVec 4) : readSr (noteSrWrite (writeSrs s (installLog s.params seed))) n =
      if n.toNat < s.params.numUserSegments then some (installValue seed n.toNat) else readSr s n :=
    (readSr_congr (noteSrWrite_sr _) n).trans (readSr_installed s s.params seed n)
  have hdoes := does_srinst seed s
  refine ⟨noteSrWrite (writeSrs s (installLog s.params seed)), ?_, fun n hn => ?_, fun n hn => ?_, fun hsync => ?_,
    fun hsync => ?_, by simp, by simp, by simp, by simp⟩
  · rwa [installLog_eq] at hdoes ⊢
  · rw [hread, if_pos hn, installValue, maskSeed]
  · rw [hread, if_neg (Nat.not_lt.mpr hn)]
  · exact noteSrWrite_sets (by rwa [writeSrs_params])
  · rw [noteSrWrite_keeps (by rwa [writeSrs_params]), writeSrs_syncPending]

/-- Settles O24: the writes and the log of the response are the only use of the seed, and both read it through the mask. -/
theorem maskedSeedInstallsTheSame : Obligations.MaskedSeedInstallsTheSame := by
  unfold Obligations.MaskedSeedInstallsTheSame
  intro seed s
  change execSrinst (maskSeed seed) s = execSrinst seed s
  rw [execSrinst, installLog_maskSeed, ← execSrinst]

/-! ## SRWR and SRRD -/

theorem does_srwr (n : BitVec 4) (value : Word) (s : State) :
    Does (.srwr n value) (0x32000000 ||| n.setWidth 32) s (answerOk (noteSrWrite (writeSr s n value)) .empty) :=
  does_of_unlessHalted (commandWord_eq 0x32 n) rfl

theorem does_srrd (n : BitVec 4) (s : State) :
    Does (.srrd n) (0x33000000 ||| n.setWidth 32) s (withSr s n fun v => answerOk s (.srValue v)) :=
  does_of_unlessHalted (commandWord_eq 0x33 n) rfl

/-- Settles O28: the write is that of one register, and noting it touches the barrier flag alone. -/
theorem srwrWritesOneRegister : Obligations.SrwrWritesOneRegister := by
  unfold Obligations.SrwrWritesOneRegister
  intro n value s
  have hread (m : BitVec 4) : readSr (noteSrWrite (writeSr s n value)) m = if n = m then some value else readSr s m :=
    (readSr_congr (noteSrWrite_sr _) m).trans (readSr_writeSr s n m value)
  refine ⟨noteSrWrite (writeSr s n value), does_srwr n value s, ?_, fun m hm => ?_, fun hsync => noteSrWrite_sets hsync,
    fun hsync => noteSrWrite_keeps hsync, by simp, by simp, by simp, by simp⟩
  · rw [hread, if_pos rfl]
  · rw [hread, if_neg hm.symm]

/-- Settles O29: whether the register is written decides. -/
theorem srrdAnswersTheRegister : Obligations.SrrdAnswersTheRegister := by
  unfold Obligations.SrrdAnswersTheRegister
  intro n s
  have hdoes := does_srrd n s
  refine ⟨fun hread => ?_, fun v hread => ?_⟩
  · rwa [withSr_unwritten hread] at hdoes
  · rwa [withSr_written hread] at hdoes

/-! ## SRSYNC and UENTER -/

theorem does_srsync (s : State) : Does .srsync 0x31000000 s (answerOk (setSync s false) .empty) :=
  does_of_unlessHalted (show commandWord 0x31 0 = _ by decide) rfl

theorem does_uenter (s : State) :
    Does .uenter 0x34000000 s (if s.syncPending then takeFault s .hazard 0 else answerOk s .empty) :=
  does_of_unlessHalted (show commandWord 0x34 0 = _ by decide) rfl

/-- What SRSYNC leaves, on a halted block and on a running one, a second SRSYNC leaves as it is. -/
theorem exec_srsync_idem (s : State) : ∃ t, exec .srsync s = .next t ∧ exec .srsync t = .next t := by
  cases hhalt : isHalted s with
  | true => exact ⟨_, unlessHalted_halted hhalt _, unlessHalted_halted hhalt _⟩
  | false => exact ⟨_, exec_srsync hhalt, exec_srsync hhalt⟩

/-- Settles O30: clearing a flag that is clear already, by the first SRSYNC or by the invariant, changes nothing. -/
theorem srsyncClearsBarrierFlag : Obligations.SrsyncClearsBarrierFlag := by
  unfold Obligations.SrsyncClearsBarrierFlag
  intro s
  refine ⟨does_srsync s, exec_srsync_idem s, fun hcons hsync => ?_⟩
  have hclear : s.syncPending = false := hcons.noBarrierNeeded hsync
  have hsame : setSync s false = s := by rw [setSync, ← hclear]
  have hdoes := does_srsync s
  rw [hsame] at hdoes
  exact ⟨hclear, hdoes⟩

theorem does_uenter_clear {s : State} (h : s.syncPending = false) : Does .uenter 0x34000000 s (answerOk s .empty) := by
  have hdoes := does_uenter s
  rwa [if_neg (by simp [h])] at hdoes

/-- Settles O31: the flag decides, and by the invariant it is clear where no barrier is needed. -/
theorem uenterChecksBarrierFlag : Obligations.UenterChecksBarrierFlag := by
  unfold Obligations.UenterChecksBarrierFlag
  intro s
  refine ⟨fun hpending => ?_, does_uenter_clear, fun hcons hsync => does_uenter_clear (hcons.noBarrierNeeded hsync)⟩
  have hdoes := does_uenter s
  rwa [if_pos hpending] at hdoes

/-! ## The user ceiling (43_segment_install.md R160) -/

/-- Settles O59: the ceiling's segments are counted by rounding down, and no slot is above the sixteenth. -/
theorem eligibleSlotsLieBelowTheCeiling : Obligations.EligibleSlotsLieBelowTheCeiling := by
  unfold Obligations.EligibleSlotsLieBelowTheCeiling
  intro p ceiling n hcount hn
  calc eligible p n = true
    _ ↔ n < min 16 (ceiling / 2 ^ 28) := by rw [eligible, hcount, decide_eq_true_iff, userSegmentsBelow]
    _ ↔ n + 1 ≤ ceiling / 2 ^ 28 := by rw [lt_min_iff, and_iff_right hn, Nat.lt_iff_add_one_le]
    _ ↔ (n + 1) * 2 ^ 28 ≤ ceiling := Nat.le_div_iff_mul_le (by decide)

end Sys2Proof.Machine
end

section
/-! SUPPORT. Statuses and the fault set (60_exceptions.md): what each kind of ending does to the fault set, from the effects of a
command; which command answers which status, from the operations the command is made of; and the halted block. -/

namespace Sys2Proof.Machine

/-! ## The fault set -/

/-- Settles O33: only an effect that records a reason changes the fault set, and it shows that reason's sticky status. -/
theorem onlyStickyStatusesChangeFaults : Obligations.OnlyStickyStatusesChangeFaults := by
  unfold Obligations.OnlyStickyStatusesChangeFaults
  intro i s
  obtain ⟨t, hexec, heff⟩ := exec_effects i s
  cases heff with
  | halted => exact ⟨_, _, hexec, rfl, nofun, nofun, fun _ _ _ => rfl, nofun⟩
  | answers _ _ _ hplain =>
    exact ⟨_, _, hexec, rfl, fun h => by simp [h, haltStatus] at hplain, fun h => by simp [h, haltStatus] at hplain,
      fun _ _ _ => rfl, fun _ => rfl⟩
  | @records _ reason =>
    cases reason with
    | uninit => exact ⟨_, _, hexec, rfl, fun _ => rfl, nofun, fun _ h => absurd rfl h, nofun⟩
    | hazard => exact ⟨_, _, hexec, rfl, nofun, fun _ => rfl, fun _ _ h => absurd rfl h, nofun⟩
  | batwr | srinst | srsync | srwr =>
    exact ⟨_, _, hexec, rfl, nofun, nofun, fun h => absurd rfl h, fun _ => by simp⟩

/-- No effect of a command takes a reason out of the fault set (10_state.md R32). -/
theorem Effect.keeps_faults {i : Instr} {s t : State} (h : Effect s i t) :
    (s.faults.uninit = true → t.faults.uninit = true) ∧ (s.faults.hazard = true → t.faults.hazard = true) := by
  cases h with
  | @records _ reason => cases reason <;> simp [addFault]
  | halted | answers | batwr | srinst | srsync | srwr => simp

/-! ## The commands that raise a status -/

/-- Whatever response the outcome `a` shows has the property `P`. -/
def Replies (P : Response → Prop) (a : Result) : Prop := ∀ t r, a = .next t → t.response = some r → P r

namespace Replies

variable {P : Response → Prop} {s : State} {a b : Result}

theorem ret {results : Results} (h : P ⟨.ok, 0, some results⟩) : Replies P (ret s results) := by
  rintro _ _ ⟨⟩ ⟨⟩
  exact h

theorem raise {status : Status} {info : Nat} (h : P ⟨status, info, none⟩) : Replies P (raise s status info) := by
  rintro _ _ ⟨⟩ ⟨⟩
  exact h

theorem takeFault {reason : FaultReason} {info : Nat} (h : P ⟨stickyStatus reason, info, none⟩) :
    Replies P (takeFault s reason info) := by
  rintro _ _ ⟨⟩ ⟨⟩
  exact h

theorem ite {c : Prop} [Decidable c] (hthen : c → Replies P a) (helse : ¬ c → Replies P b) :
    Replies P (if c then a else b) := by
  split
  · exact hthen ‹_›
  · exact helse ‹_›

theorem unlessHalted (hhalt : isHalted s = true → P ⟨.halted, 0, none⟩) (hbody : isHalted s = false → Replies P a) :
    Replies P (unlessHalted s a) :=
  ite (fun h => raise (hhalt h)) fun h => hbody (by simpa using h)

theorem checkBatIndex {k : BitVec 4} (habsent : s.params.nBat ≤ k.toNat → P ⟨.badIndex, k.toNat, none⟩)
    (hbody : k.toNat < s.params.nBat → Replies P a) : Replies P (checkBatIndex s k a) :=
  ite (fun h => raise (habsent h)) fun h => hbody (Nat.lt_of_not_le h)

theorem withBat {k : BitVec 4} {f : BatPair → Result} (hnone : readBat s k = none → P ⟨.faultUninit, k.toNat, none⟩)
    (hbody : ∀ p, Replies P (f p)) : Replies P (withBat s k f) := by
  cases h : readBat s k with
  | none =>
    rw [withBat_unwritten h]
    exact takeFault (hnone h)
  | some p =>
    rw [withBat_written h]
    exact hbody p

theorem withSr {n : BitVec 4} {f : Word → Result} (hnone : readSr s n = none → P ⟨.faultUninit, 16 + n.toNat, none⟩)
    (hbody : ∀ v, Replies P (f v)) : Replies P (withSr s n f) := by
  cases h : readSr s n with
  | none =>
    rw [withSr_unwritten h]
    exact takeFault (hnone h)
  | some v =>
    rw [withSr_written h]
    exact hbody v

/-- The scan faults only at an unwritten pair of its list. -/
theorem scanBats {is : List (BitVec 4)} (hok : ∀ results, P ⟨.ok, 0, some results⟩)
    (hnone : ∀ k ∈ is, readBat s k = none → P ⟨.faultUninit, k.toNat, none⟩) : Replies P (scanBats s is) := by
  induction is with
  | nil => exact ret (hok _)
  | cons k rest ih =>
    exact withBat (hnone k List.mem_cons_self) fun p => ite (fun _ => ret (hok _)) fun _ =>
      ih fun j hj => hnone j (List.mem_cons_of_mem k hj)

end Replies

/-- Settles O34: what the statement says of a response is the property `P`, and each command's checks give it where they end
the command. -/
theorem statusesComeFromTheirCommands : Obligations.StatusesComeFromTheirCommands := by
  unfold Obligations.StatusesComeFromTheirCommands
  intro i s
  change Replies _ (exec i s)
  cases i with
  | vsid | vsidea | ppchk | srinst | srsync | srwr => exact .unlessHalted id fun hrun => .ret hrun
  | pteenc ports =>
    refine .unlessHalted id fun hrun => ?_
    cases firstTooWide 0 (pteChecks ports) with
    | some k => exact .raise (by simp [mnemonicOf])
    | none => exact .ite (fun _ => .raise (by simp [mnemonicOf])) fun _ => .ret hrun
  | ptedec =>
    exact .unlessHalted id fun hrun => .ite (fun _ => .raise rfl) fun _ => .ite (fun _ => .raise rfl) fun _ => .ret hrun
  | batsize base top =>
    exact .unlessHalted id fun hrun => .ite (fun hgt => .raise ⟨base, top, rfl, hgt⟩) fun hle =>
      .ite (fun hlen => .raise ⟨base, top, rfl, Nat.le_of_not_lt hle, hlen⟩) fun _ => .ret hrun
  | batfree =>
    exact .unlessHalted id fun hrun => .scanBats (fun _ => hrun) fun k hk hnone =>
      .inr ⟨k, .inr rfl, (mem_batIndices s.params k).mp hk, hnone, rfl⟩
  | batpenc pa =>
    refine .unlessHalted id fun hrun => ?_
    cases h : encodeBatPa s.params.extPhys pa with
    | error status => rcases encodeBatPa_error h with rfl | rfl <;> exact .raise (by simp [mnemonicOf])
    | ok bits => exact .ret hrun
  | batpdec =>
    exact .unlessHalted id fun hrun =>
      .ite (fun hext => .ite (fun _ => .ret hrun) fun _ => .raise ⟨rfl, hext⟩) fun _ => .ret hrun
  | batuenc =>
    exact .unlessHalted id fun hrun => .ite (fun _ => .raise (by simp [mnemonicOf])) fun _ =>
      .ite (fun _ => .raise (by simp [mnemonicOf])) fun _ => .ret hrun
  | batlenc pa =>
    refine .unlessHalted id fun hrun => .ite (fun hext => .raise ⟨rfl, hext⟩) fun _ => ?_
    cases h : encodeBatPa s.params.extPhys pa with
    | error status => rcases encodeBatPa_error h with rfl | rfl <;> exact .raise (by simp [mnemonicOf])
    | ok field =>
      exact .ite (fun _ => .raise (by simp [mnemonicOf])) fun _ =>
        .ite (fun _ => .raise (by simp [mnemonicOf])) fun _ => .ret hrun
  | batwr =>
    exact .unlessHalted id fun hrun => .checkBatIndex (fun habsent => ⟨by simp [mnemonicOf], habsent⟩) fun _ => .ret hrun
  | batrd k =>
    exact .unlessHalted id fun hrun => .checkBatIndex (fun habsent => ⟨by simp [mnemonicOf], habsent⟩) fun hk =>
      .withBat (fun hnone => .inr ⟨k, .inl rfl, hk, hnone, rfl⟩) fun _ => .ret hrun
  | srrd n => exact .unlessHalted id fun hrun => .withSr (fun hnone => .inl ⟨n, rfl, hnone, rfl⟩) fun _ => .ret hrun
  | uenter =>
    exact .unlessHalted id fun hrun => .ite (fun hpending => .takeFault ⟨rfl, hpending⟩) fun _ => .ret hrun

/-! ## The halted block -/

/-- Every command makes the check of 60_exceptions.md R202 first. -/
theorem exec_halted {s : State} (hhalt : isHalted s = true) (i : Instr) : exec i s = answerNot s .halted 0 := by
  cases i <;> exact unlessHalted_halted hhalt _

/-- A word that selects no row is refused by the steps of 30_encoding.md R54. -/
theorem decode_illegal_of_wordOk {c : Command} (h : c.wordOk = false) :
    ∃ e, decode c = .error e ∧ isIllegal e = true :=
  decode_illegal fun shape hword => by
    obtain ⟨row, hrow, -⟩ := decodeWord_eq_ok_iff_row.mp hword
    simp [Command.wordOk, hrow] at h

/-- An illegal word changes nothing but the response, on a halted block and on a running one. -/
theorem unlessHalted_raise_eq_respond {s t : State} {status : Status} {info : Nat}
    (h : unlessHalted s (raise s status info) = .next t) : ∃ r, t = respond s r := by
  rcases unlessHalted_cases s (raise s status info) with ⟨-, heq⟩ | ⟨-, heq⟩
  · exact ⟨_, Host.Outcome.next.inj (h.symm.trans heq)⟩
  · exact ⟨_, Host.Outcome.next.inj (h.symm.trans heq)⟩

/-- A command the block takes is executed, or its word is illegal and is answered only. -/
theorem takeCommand_cases {c : Command} {s t : State} (h : takeCommand c s = .next t) :
    (∃ i, decode c = .ok i ∧ exec i s = .next t) ∨ ∃ r, t = respond s r := by
  cases hdec : decode c with
  | ok i => exact .inl ⟨i, rfl, by rwa [takeCommand_ok hdec] at h⟩
  | error e =>
    cases hill : isIllegal e with
    | true => exact .inr (unlessHalted_raise_eq_respond (by rwa [takeCommand_illegal hdec hill] at h))
    | false => cases e <;> simp_all [takeCommand, isIllegal]

theorem takeCommand_halted {c : Command} {s : State} (hhalt : isHalted s = true)
    (hc : c.wordOk = false ∨ c.WellFormed = true) : takeCommand c s = answerNot s .halted 0 := by
  rcases hc with hword | hwell
  · obtain ⟨e, hdec, hill⟩ := decode_illegal_of_wordOk hword
    exact (takeCommand_illegal hdec hill s).trans (unlessHalted_halted hhalt _)
  · obtain ⟨i, hdec⟩ := (decoderAcceptsExactlyWellFormed c).mpr hwell
    exact (takeCommand_ok hdec s).trans (exec_halted hhalt i)

/-- Settles O35: the check for a halted block comes first, no effect removes a reason, and a reset empties the set. -/
theorem haltedBlockAnswersHaltedUntilReset : Obligations.HaltedBlockAnswersHaltedUntilReset := by
  unfold Obligations.HaltedBlockAnswersHaltedUntilReset
  refine ⟨fun i s hhalt => exec_halted hhalt i, fun c s => takeCommand_halted, fun c s t h => ?_, fun s => rfl⟩
  rcases takeCommand_cases h with ⟨i, -, hexec⟩ | ⟨r, rfl⟩
  · exact (effect_of_exec hexec).keeps_faults
  · exact ⟨id, id⟩

end Sys2Proof.Machine
end

section
/-! SUPPORT. Reset and the software-visible hazards (70_reset_and_hazards.md): the state after a reset (R220), a read right
after a write (R227), and the variant barrier along a run of presented commands (R225, R226). -/

namespace Sys2Proof.Machine

/-! ## The state after reset -/

theorem readSr_resetWith (p : Params) (n : BitVec 4) : readSr (State.resetWith p) n = none := by
  simp [readSr, State.resetWith]

theorem readBat_resetWith (p : Params) (i : BitVec 4) : readBat (State.resetWith p) i = none := by
  simp [readBat, State.resetWith]

/-- Settles O42: a reset block differs from the state a machine starts from in its inbox alone. -/
theorem resetLeavesTheStatedValues : Obligations.ResetLeavesTheStatedValues := by
  unfold Obligations.ResetLeavesTheStatedValues
  rintro p s t (rfl | ⟨rfl, rfl⟩)
  · exact ⟨readSr_resetWith p, readBat_resetWith p, rfl, rfl, rfl⟩
  · exact ⟨readSr_resetWith s.params, readBat_resetWith s.params, rfl, rfl, rfl⟩

/-- Settles O43: a state after reset is what a reset makes of itself. -/
theorem resetStateIsConsistent : Obligations.ResetStateIsConsistent := by
  unfold Obligations.ResetStateIsConsistent
  exact ⟨fun p => .resetBlock (State.resetWith p), .resetBlock State.reset⟩

/-! ## A read right after a write -/

/-- Settles O22: the write leaves the block running and its register written, and the response it shows hides neither. -/
theorem readAfterWriteAnswersTheWords : Obligations.ReadAfterWriteAnswersTheWords := by
  unfold Obligations.ReadAfterWriteAnswersTheWords
  refine fun s hrun => ⟨fun i upper lower hi => ?_, fun n value => ?_⟩
  · obtain ⟨-, hwrite⟩ := batwrWritesOnePair i upper lower s
    obtain ⟨t, hdoes, hread, -, -, -, hfaults, hparams, -⟩ := hwrite hi
    obtain ⟨-, -, hanswer⟩ := batrdAnswersThePair i (respond t ⟨.ok, 0, some .empty⟩)
    have hrunning : isHalted t = false := by rwa [isHalted, hfaults]
    exact ⟨_, hdoes.exec_running hrun, (hanswer _ (hparams ▸ hi) hread).exec_running hrunning⟩
  · obtain ⟨t, hdoes, hread, -, -, -, -, hfaults, -⟩ := srwrWritesOneRegister n value s
    obtain ⟨-, hanswer⟩ := srrdAnswersTheRegister n (respond t ⟨.ok, 0, some .empty⟩)
    have hrunning : isHalted t = false := by rwa [isHalted, hfaults]
    exact ⟨_, hdoes.exec_running hrun, (hanswer _ hread).exec_running hrunning⟩

/-! ## The barrier a presented sequence owes -/

/-- Whether an SRSYNC is owed after a command, when `owed` says whether one was owed before it (R225). -/
def owedAfter (syncRequired owed : Bool) : Instr → Bool
  | .srinst _ | .srwr _ _ => owed || syncRequired
  | .srsync => false
  | _ => owed

/-- What `respectsBarrier` asks where a command is presented, as a function of what the command decodes to: so that the cases
can be taken on the decoded instruction. -/
def respectsBarrierAt (syncRequired owed : Bool) (rest : List HostEvent) : Except DecodeError Instr → Bool
  | .ok .uenter => !owed && respectsBarrier syncRequired owed rest
  | .ok (.srinst _) => respectsBarrier syncRequired (owed || syncRequired) rest
  | .ok (.srwr _ _) => respectsBarrier syncRequired (owed || syncRequired) rest
  | .ok .srsync => respectsBarrier syncRequired false rest
  | _ => respectsBarrier syncRequired owed rest

theorem respectsBarrier_command (syncRequired owed : Bool) (c : Command) (rest : List HostEvent) :
    respectsBarrier syncRequired owed (.command c :: rest) = respectsBarrierAt syncRequired owed rest (decode c) := rfl

theorem respectsBarrier_reset (syncRequired owed : Bool) (rest : List HostEvent) :
    respectsBarrier syncRequired owed (.reset :: rest) = respectsBarrier syncRequired false rest := rfl

/-- At an instruction: a UENTER is presented only where no SRSYNC is owed. -/
theorem respectsBarrierAt_ok (syncRequired owed : Bool) (rest : List HostEvent) (i : Instr) :
    respectsBarrierAt syncRequired owed rest (.ok i) = true ↔
      (i = .uenter → owed = false) ∧ respectsBarrier syncRequired (owedAfter syncRequired owed i) rest = true := by
  cases i with
  | uenter =>
    have howed : (!owed) = true ↔ (Instr.uenter = .uenter → owed = false) := by simp
    exact Bool.and_eq_true_iff.trans (and_congr_left' howed)
  | _ => exact ⟨fun h => ⟨nofun, h⟩, And.right⟩

theorem respectsBarrierAt_error (syncRequired owed : Bool) (rest : List HostEvent) (e : DecodeError) :
    respectsBarrierAt syncRequired owed rest (.error e) = respectsBarrier syncRequired owed rest := rfl

/-- On a running block `sr_sync_pending` follows what is owed (10_state.md R30). -/
theorem syncPending_of_exec {i : Instr} {s t : State} (hrun : isHalted s = false) (h : exec i s = .next t) :
    t.syncPending = owedAfter s.params.syncRequired s.syncPending i := by
  obtain ⟨hflag, -, -⟩ := barrierFlagChangesAsStated
  rw [hflag i s t h, hrun]
  cases i with
  | srinst | srwr => exact Bool.or_comm _ _
  | _ => rfl

/-- HAZARD is recorded by a UENTER that finds a barrier pending, and by nothing else (60_exceptions.md R205). -/
theorem uenter_of_hazard {i : Instr} {s t : State} (h : exec i s = .next t) (hbefore : s.faults.hazard = false)
    (hafter : t.faults.hazard = true) : isHalted s = false ∧ i = .uenter ∧ s.syncPending = true := by
  cases effect_of_exec h with
  | @records _ reason _ hrun =>
    cases reason with
    | uninit => exact absurd (hbefore.symm.trans hafter) nofun
    | hazard => exact ⟨hrun, statusesComeFromTheirCommands i s _ _ h rfl⟩
  | halted | answers | batwr | srinst | srsync | srwr => simp [hbefore] at hafter

/-- A command leaves no halted block running (10_state.md R32). -/
theorem running_of_exec {i : Instr} {s t : State} (h : exec i s = .next t) (hrun : isHalted t = false) :
    isHalted s = false := by
  obtain ⟨huninit, hhazard⟩ := (effect_of_exec h).keeps_faults
  have hkeeps : isHalted s = true → isHalted t = true := by
    simpa only [isHalted, Bool.or_eq_true] using Or.imp huninit hhazard
  exact Bool.eq_false_iff.mpr (mt hkeeps (Bool.eq_false_iff.mp hrun))

/-! ## A run that respects the barrier -/

/-- The invariant of such a run: no HAZARD is recorded, and what is still presented respects the barrier for some `owed`, which
is the block's own flag while it runs. A halted block answers HALTED to SRWR and SRSYNC alike, so its flag may then differ from
what the sequence reckons with; the next reset clears both. -/
structure BarrierRespected (s : State) : Prop where
  noHazard : s.faults.hazard = false
  respected : ∃ owed, respectsBarrier s.params.syncRequired owed s.inbox = true ∧ (isHalted s = false → s.syncPending = owed)

namespace BarrierRespected

variable {s t : State}

/-- An executed command that the sequence allows: a UENTER finds no barrier pending. -/
theorem of_exec {i : Instr} {owed : Bool} (hno : s.faults.hazard = false) (hallowed : i = .uenter → owed = false)
    (hrest : respectsBarrier s.params.syncRequired (owedAfter s.params.syncRequired owed i) s.inbox = true)
    (howed : isHalted s = false → s.syncPending = owed) (h : exec i s = .next t) : BarrierRespected t where
  noHazard := by
    refine Bool.eq_false_iff.mpr fun hafter => ?_
    obtain ⟨hrun, huenter, hpending⟩ := uenter_of_hazard h hno hafter
    exact absurd (hpending.symm.trans ((howed hrun).trans (hallowed huenter))) nofun
  respected := by
    have heff := effect_of_exec h
    refine ⟨owedAfter s.params.syncRequired owed i, by rwa [heff.params_eq, heff.inbox_eq], fun hrun => ?_⟩
    have hbefore := running_of_exec h hrun
    rw [syncPending_of_exec hbefore h, howed hbefore]

theorem of_step (h : BarrierRespected s) (hstep : step s = .next t) : BarrierRespected t := by
  obtain ⟨hno, owed, hrespects, howed⟩ := h
  rcases step_cases hstep with ⟨-, rfl⟩ | ⟨rest, hin, rfl⟩ | ⟨c, rest, i, hin, hdec, hexec⟩ | ⟨c, rest, e, hin, hdec, -, hill⟩
  · exact ⟨hno, owed, hrespects, howed⟩
  · rw [hin, respectsBarrier_reset] at hrespects
    exact ⟨rfl, false, hrespects, fun _ => rfl⟩
  · rw [hin, respectsBarrier_command, hdec, respectsBarrierAt_ok] at hrespects
    obtain ⟨hallowed, hrest⟩ := hrespects
    exact of_exec (s := withInbox s rest) hno hallowed hrest howed hexec
  · rw [hin, respectsBarrier_command, hdec, respectsBarrierAt_error] at hrespects
    obtain ⟨r, rfl⟩ := unlessHalted_raise_eq_respond hill
    exact ⟨hno, owed, hrespects, howed⟩

end BarrierRespected

/-- What every step keeps, a run of any length keeps. -/
theorem run_keeps {P : State → Prop} (hstep : ∀ s t, P s → step s = .next t → P t) (k : Nat) {s t : State} (hs : P s)
    (hrun : Host.Core.run Sys2Proof.core k s = .next t) : P t := by
  induction k generalizing s with
  | zero => exact Host.Outcome.next.inj hrun ▸ hs
  | succ k ih =>
    cases h : Sys2Proof.core.step s with
    | next s' =>
      simp only [Host.Core.run, h] at hrun
      exact ih (hstep s s' hs h) hrun
    | fault | refused => simp [Host.Core.run, h] at hrun

/-- Settles O47: the run starts with the block's own flag as what is owed, and every step keeps the invariant. -/
theorem barrierRespectingRunNeverFaultsHazard : Obligations.BarrierRespectingRunNeverFaultsHazard := by
  unfold Obligations.BarrierRespectingRunNeverFaultsHazard
  intro k s t hno hrespects hrun
  have hstart : BarrierRespected s := ⟨hno, s.syncPending, hrespects, fun _ => rfl⟩
  exact (run_keeps (fun _ _ => BarrierRespected.of_step) k hstart hrun).noHazard

end Sys2Proof.Machine
end

section
/-! SUPPORT. What the spec derives of the VSID function (40_vsid.md R103, R104): the low nibble of a VSID is its segment, and
two VSIDs are the same exactly when the segments are and the context ids agree modulo 2^20. -/

namespace Sys2Proof.Machine

theorem exec_vsid {s : State} (hrun : isHalted s = false) (ctx : Word) (seg : BitVec 4) :
    exec (.vsid ctx seg) s = answerOk s (.vsid (vsidOf ctx seg)) :=
  unlessHalted_running hrun _

theorem answerOk_inj {s : State} {a b : Results} : answerOk s a = answerOk s b ↔ a = b := by
  simp [answerOk]

/-- The sum of R100 as a number: the context id's share of it is a multiple of 16. -/
theorem vsidOf_toNat (ctx : Word) (seg : BitVec 4) :
    (vsidOf ctx seg).toNat = (ctx.toNat * 897 * 16 + seg.toNat * 0x111) % 2 ^ 24 := by
  rw [vsidOf_eq, BitVec.toNat_ofNat]

theorem vsidOf_lowNibble (ctx : Word) (seg : BitVec 4) : (vsidOf ctx seg).extractLsb' 0 4 = seg := by
  refine BitVec.eq_of_toNat_eq ?_
  rw [toNat_field, vsidOf_toNat]
  omega

/-- Settles O3: 0x111 is 1 modulo 16, and the context id's share is 0. -/
theorem vsidLowNibbleIsSegment : Obligations.VsidLowNibbleIsSegment := by
  unfold Obligations.VsidLowNibbleIsSegment
  exact fun ctx seg s hrun => ⟨vsidOf ctx seg, exec_vsid hrun ctx seg, vsidOf_lowNibble ctx seg⟩

/-- Within one segment, 16 comes off the factor and the modulus, and 897 is odd. -/
theorem vsidOf_eq_iff_ctx (c1 c2 : Word) (seg : BitVec 4) :
    vsidOf c1 seg = vsidOf c2 seg ↔ c1.toNat % 2 ^ 20 = c2.toNat % 2 ^ 20 := by
  rw [← BitVec.toNat_inj, vsidOf_toNat, vsidOf_toNat]
  calc c1.toNat * 897 * 16 + seg.toNat * 0x111 ≡ c2.toNat * 897 * 16 + seg.toNat * 0x111 [MOD 2 ^ 24]
    _ ↔ c1.toNat * 897 * 16 ≡ c2.toNat * 897 * 16 [MOD 2 ^ 20 * 16] :=
      ⟨Nat.ModEq.add_right_cancel' _, Nat.ModEq.add_right _⟩
    _ ↔ c1.toNat * 897 ≡ c2.toNat * 897 [MOD 2 ^ 20] := Nat.ModEq.mul_right_cancel_iff' (by decide)
    _ ↔ c1.toNat ≡ c2.toNat [MOD 2 ^ 20] :=
      ⟨Nat.ModEq.cancel_right_of_coprime (by decide), Nat.ModEq.mul_right _⟩

theorem vsidOf_eq_iff (c1 c2 : Word) (s1 s2 : BitVec 4) :
    vsidOf c1 s1 = vsidOf c2 s2 ↔ s1 = s2 ∧ c1.toNat % 2 ^ 20 = c2.toNat % 2 ^ 20 := by
  constructor
  · intro h
    obtain rfl : s1 = s2 := by rw [← vsidOf_lowNibble c1 s1, h, vsidOf_lowNibble]
    exact ⟨rfl, (vsidOf_eq_iff_ctx c1 c2 s1).mp h⟩
  · rintro ⟨rfl, hctx⟩
    exact (vsidOf_eq_iff_ctx c1 c2 s1).mpr hctx

/-- Settles O4: the answers agree when the VSIDs do, which show the segment and the context id modulo 2^20. -/
theorem vsidCollisionsAreExactlyMod20 : Obligations.VsidCollisionsAreExactlyMod20 := by
  unfold Obligations.VsidCollisionsAreExactlyMod20
  intro c1 c2 s1 s2 s hrun
  rw [exec_vsid hrun, exec_vsid hrun, answerOk_inj, Results.vsid.injEq, vsidOf_eq_iff]

end Sys2Proof.Machine
end

section
/-! SUPPORT. The page-table entry codec both ways (41_pte_codec.md R117): the fields of two words and the words of the fields
determine each other where the reserved bit is 0, and the two commands accept the same entries. -/

namespace Sys2Proof.Machine

/-! ## Fields and words -/

/-- The word at the width its fields add up to, which the rules for joined bits match on. -/
theorem extractLsb'_pteWord0 (f : PteFields) (start len : Nat) :
    (pteWord0 f).extractLsb' start len =
      BitVec.extractLsb' (n := 1 + 24 + 1 + 6) start len (f.v ++ f.vsid ++ f.h ++ f.api) :=
  rfl

theorem extractLsb'_pteWord1 (f : PteFields) (start len : Nat) :
    (pteWord1 f).extractLsb' start len = BitVec.extractLsb' (n := 20 + 3 + 1 + 1 + 1 + 1 + 1 + 1 + 1 + 2) start len
      (f.rpn ++ f.xpn ++ f.r ++ f.c ++ f.w ++ f.i ++ f.m ++ f.g ++ 0#1 ++ f.pp) :=
  rfl

theorem pteSplit_pteWords (f : PteFields) : pteSplit (pteWord0 f) (pteWord1 f) = f := by
  simp (disch := decide) only [pteSplit, extractLsb'_pteWord0, extractLsb'_pteWord1, BitVec.extractLsb'_append_eq_of_le,
    BitVec.extractLsb'_append_eq_of_add_le, BitVec.extractLsb'_eq_self, Nat.reduceSub]

theorem pteReserved_pteWord1 (f : PteFields) : pteReserved (pteWord1 f) = 0 := by
  simp (disch := decide) only [pteReserved, extractLsb'_pteWord1, BitVec.extractLsb'_append_eq_of_le,
    BitVec.extractLsb'_append_eq_of_add_le, BitVec.extractLsb'_eq_self, Nat.reduceSub]
  rfl

/-- Adjoining pieces of word 0, joined from the most significant down, are the word. -/
theorem pteWord0_pteSplit (w0 w1 : Word) : pteWord0 (pteSplit w0 w1) = w0 := by
  simp (disch := decide) only [pteWord0, pteSplit, BitVec.extractLsb'_append_extractLsb'_eq_extractLsb']
  exact BitVec.extractLsb'_eq_self

/-- The reserved bit that PTEDEC requires is the one missing piece of word 1. -/
theorem pteWord1_pteSplit (w0 : Word) {w1 : Word} (h : pteReserved w1 = 0) : pteWord1 (pteSplit w0 w1) = w1 := by
  have hrsv : 0#1 = w1.extractLsb' 2 1 := h.symm
  simp (disch := decide) only [pteWord1, pteSplit, hrsv, BitVec.extractLsb'_append_extractLsb'_eq_extractLsb']
  exact BitVec.extractLsb'_eq_self

theorem pteWords_eq_iff (f : PteFields) (w0 w1 : Word) :
    pteWord0 f = w0 ∧ pteWord1 f = w1 ↔ pteReserved w1 = 0 ∧ pteSplit w0 w1 = f := by
  constructor
  · rintro ⟨rfl, rfl⟩
    exact ⟨pteReserved_pteWord1 f, pteSplit_pteWords f⟩
  · rintro ⟨hrsv, rfl⟩
    exact ⟨pteWord0_pteSplit w0 w1, pteWord1_pteSplit w0 hrsv⟩

/-! ## Fields and ports -/

theorem pteNarrow_portsOfFields (f : PteFields) : pteNarrow (portsOfFields f) = f := by
  simp (disch := decide) only [pteNarrow, portsOfFields, BitVec.setWidth_setWidth_of_le, BitVec.setWidth_eq]

/-- A field put on a port fits its width. -/
theorem portsOfFields_fit (f : PteFields) : ∀ x ∈ pteChecks (portsOfFields f), x.1.toNat < 2 ^ x.2 := by
  have hfit {w : Nat} (x : BitVec w) : (x.setWidth 32).toNat < 2 ^ w :=
    lt_of_le_of_lt (BitVec.toNat_setWidth 32 x ▸ Nat.mod_le _ _) x.isLt
  simp only [pteChecks, portsOfFields, List.forall_mem_cons, hfit, true_and, List.not_mem_nil, false_imp_iff, implies_true]

theorem portsOfFields_xpn_eq_zero_iff (f : PteFields) : (portsOfFields f).xpn = 0 ↔ f.xpn = 0 := by
  constructor
  · intro h
    rw [← pteNarrow_portsOfFields f, pteNarrow, h]
    rfl
  · intro h
    rw [portsOfFields, h]
    rfl

theorem fits_of_firstTooWide_eq_none {fields : List (Word × Nat)} {k : Nat} (h : firstTooWide k fields = none) :
    ∀ f ∈ fields, f.1.toNat < 2 ^ f.2 := by
  induction fields generalizing k with
  | nil => exact fun _ hmem => absurd hmem List.not_mem_nil
  | cons f rest ih =>
    rw [firstTooWide] at h
    split at h
    · cases h
    · exact List.forall_mem_cons.mpr ⟨by omega, ih h⟩

/-! ## The commands -/

/-- A check is passed where what it guards answers OK. -/
theorem ite_answerNot_eq_answerOk_iff {c : Prop} [Decidable c] {s t : State} {status : Status} {info : Nat} {a : Result}
    {r : Results} : (if c then answerNot s status info else a) = answerOk t r ↔ ¬c ∧ a = answerOk t r := by
  by_cases hc : c
  · rw [if_pos hc]
    exact iff_of_false (answerNot_ne_answerOk _ _ _ _ _) fun h => h.1 hc
  · rw [if_neg hc, and_iff_right hc]

theorem exec_pteenc_ok_iff {p : PtePorts} {w0 w1 : Word} {s : State} (hrun : isHalted s = false) :
    exec (.pteenc p) s = answerOk s (.pteWords w0 w1) ↔
      ∃ f, portsOfFields f = p ∧ ¬(s.params.extPhys = false ∧ f.xpn ≠ 0) ∧ pteWord0 f = w0 ∧ pteWord1 f = w1 := by
  cases hwide : firstTooWide 0 (pteChecks p) with
  | some k =>
    rw [(does_pteenc_of_tooWide hwide s).exec_running hrun]
    refine iff_of_false (answerNot_ne_answerOk _ _ _ _ _) ?_
    rintro ⟨f, rfl, -⟩
    rw [firstTooWide_eq_none (portsOfFields_fit f)] at hwide
    cases hwide
  | none =>
    have hports := portsOfFields_pteNarrow (fits_of_firstTooWide_eq_none hwide)
    rw [(does_pteenc_of_fits hwide s).exec_running hrun, ite_answerNot_eq_answerOk_iff, answerOk_inj,
      Results.pteWords.injEq]
    constructor
    · rintro ⟨hmode, hwords⟩
      rw [← hports, ne_eq, portsOfFields_xpn_eq_zero_iff] at hmode
      exact ⟨pteNarrow p, hports, hmode, hwords⟩
    · rintro ⟨f, rfl, hmode, hwords⟩
      rw [pteNarrow_portsOfFields, ne_eq, portsOfFields_xpn_eq_zero_iff]
      exact ⟨hmode, hwords⟩

theorem exec_ptedec_ok_iff {w0 w1 : Word} {f : PteFields} {ppn : BitVec 23} {s : State} (hrun : isHalted s = false) :
    exec (.ptedec w0 w1) s = answerOk s (.pteFields f ppn) ↔
      (pteReserved w1 = 0 ∧ pteSplit w0 w1 = f) ∧ ¬(s.params.extPhys = false ∧ f.xpn ≠ 0) ∧ ppnOf f = ppn := by
  rw [(does_ptedec w0 w1 s).exec_running hrun, ite_answerNot_eq_answerOk_iff, ite_answerNot_eq_answerOk_iff, answerOk_inj,
    Results.pteFields.injEq, not_not]
  constructor
  · rintro ⟨hrsv, hmode, rfl, hppn⟩
    exact ⟨⟨hrsv, rfl⟩, hmode, hppn⟩
  · rintro ⟨⟨hrsv, rfl⟩, hmode, hppn⟩
    exact ⟨hrsv, hmode, rfl, hppn⟩

/-- Settles O7: both commands are OK on the same entries, of which the words and the fields determine each other. -/
theorem pteCodecRoundTrips : Obligations.PteCodecRoundTrips := by
  unfold Obligations.PteCodecRoundTrips
  refine fun s hrun => ⟨fun p w0 w1 henc => ?_, fun w0 w1 f ppn hdec => ?_⟩
  · obtain ⟨f, hports, hmode, hwords⟩ := (exec_pteenc_ok_iff hrun).mp henc
    exact ⟨f, ppnOf f, (exec_ptedec_ok_iff hrun).mpr ⟨(pteWords_eq_iff f w0 w1).mp hwords, hmode, rfl⟩, hports⟩
  · obtain ⟨hsplit, hmode, -⟩ := (exec_ptedec_ok_iff hrun).mp hdec
    exact (exec_pteenc_ok_iff hrun).mpr ⟨f, rfl, hmode, (pteWords_eq_iff f w0 w1).mpr hsplit⟩

end Sys2Proof.Machine
end

section
/-! SUPPORT. BAT physical addresses both ways (42_bat.md R144): each mode's encoding and decoding are inverse to each other on
the addresses BATPENC accepts and the fields BATPDEC accepts. -/

namespace Sys2Proof.Machine

theorem exec_batpenc_ok {s : State} (hrun : isHalted s = false) {pa : PhysAddr} {b : Word}
    (h : encodeBatPa s.params.extPhys pa = .ok b) : exec (.batpenc pa) s = answerOk s (.batBits b) :=
  (does_batpenc_ok h).exec_running hrun

theorem exec_batpdec_ext {s : State} (hrun : isHalted s = false) (hext : s.params.extPhys = true) (b : Word) :
    exec (.batpdec b) s = if extFieldOk b then answerOk s (.batPa (decX b)) else answerNot s .decMalformed b.toNat := by
  rw [(does_batpdec b s).exec_running hrun, if_pos hext]

/-! ## EXT_PHYS false -/

theorem dec32_of_address {pa : PhysAddr} (hpa : pa.toNat < 2 ^ 32) (haligned : pa.toNat % 2 ^ 17 = 0) :
    dec32 (BitVec.ofNat 32 pa.toNat) = pa := by
  refine BitVec.eq_of_toNat_eq ?_
  rw [dec32_toNat, BitVec.toNat_ofNat]
  omega

theorem encodeBatPa_dec32 (b : Word) : encodeBatPa false (dec32 b) = .ok (b &&& 0xFFFE0000) := by
  have hdec := dec32_toNat b
  have hlimit : (dec32 b).toNat < paLimit false := by change _ < 2 ^ 32; omega
  rw [encodeBatPa_of_aligned hlimit (by omega), if_neg Bool.false_ne_true, ← enc32_eq, enc32, dec32,
    BitVec.setWidth_setWidth_of_le _ (by decide), BitVec.setWidth_eq]

/-! ## EXT_PHYS true -/

/-- The field of an address has PA[32] at bit 0 and at bit 16, which is what BATPDEC requires (42_bat.md R139). -/
theorem decX_of_address {pa : PhysAddr} {b : Word} (hpa : pa.toNat < 2 ^ 34) (haligned : pa.toNat % 2 ^ 17 = 0)
    (hb : b = BitVec.ofNat 32 (pa.toNat / 2 ^ 17 * 2 + pa.toNat / 2 ^ 32 % 2)) : extFieldOk b = true ∧ decX b = pa := by
  have hfield : b.toNat = pa.toNat / 2 ^ 17 * 2 + pa.toNat / 2 ^ 32 % 2 := by rw [hb, BitVec.toNat_ofNat]; omega
  have hhigh : b.toNat / 2 ^ 18 = 0 := by omega
  have hbit : b.toNat / 2 ^ 16 = pa.toNat / 2 ^ 32 := by omega
  have hpage : b.toNat / 2 = pa.toNat / 2 ^ 17 := by omega
  refine ⟨(extFieldOk_iff b).mpr ⟨hhigh, by omega⟩, BitVec.eq_of_toNat_eq ?_⟩
  rw [decX_eq hhigh, hpage, BitVec.toNat_ofNat]
  omega

theorem encodeBatPa_decX {b : Word} (h : extFieldOk b = true) : encodeBatPa true (decX b) = .ok b := by
  obtain ⟨hhigh, hfold⟩ := (extFieldOk_iff b).mp h
  have hdec : (decX b).toNat = b.toNat / 2 * 2 ^ 17 := by rw [decX_eq hhigh, BitVec.toNat_ofNat]; omega
  have hlimit : (decX b).toNat < paLimit true := by change _ < 2 ^ 34; omega
  have hpage : (decX b).toNat / 2 ^ 17 = b.toNat / 2 := by omega
  have hbit : (decX b).toNat / 2 ^ 32 = b.toNat / 2 ^ 16 := by omega
  rw [encodeBatPa_of_aligned hlimit (by omega), if_pos rfl, hpage, hbit]
  exact congrArg Except.ok (eq_ofNat_of_toNat (by omega)).symm

/-! ## The commands -/

theorem batpenc_then_batpdec {s : State} (hrun : isHalted s = false) {pa : PhysAddr}
    (hpa : pa.toNat < paLimit s.params.extPhys) (haligned : pa.toNat % 2 ^ 17 = 0) :
    ∃ b, exec (.batpenc pa) s = answerOk s (.batBits b) ∧ exec (.batpdec b) s = answerOk s (.batPa pa) := by
  refine ⟨_, exec_batpenc_ok hrun (encodeBatPa_of_aligned hpa haligned), ?_⟩
  cases hext : s.params.extPhys with
  | false =>
    rw [hext] at hpa
    rw [exec_batpdec hrun hext, if_neg Bool.false_ne_true, dec32_of_address hpa haligned]
  | true =>
    rw [hext] at hpa
    obtain ⟨hok, hdec⟩ := decX_of_address hpa haligned rfl
    rw [exec_batpdec_ext hrun hext, if_pos rfl, if_pos hok, hdec]

/-- Settles O14: each command answers what the mode's decoding or encoding gives, and these are inverse to each other. -/
theorem batAddressRoundTrips : Obligations.BatAddressRoundTrips := by
  unfold Obligations.BatAddressRoundTrips
  refine fun s hrun => ⟨fun pa => batpenc_then_batpdec hrun, fun hext b pa hdec => ?_, fun hext b => ?_⟩
  · rw [exec_batpdec_ext hrun hext] at hdec
    split at hdec
    next hok =>
      obtain rfl : decX b = pa := Results.batPa.inj (answerOk_inj.mp hdec)
      exact exec_batpenc_ok hrun (hext ▸ encodeBatPa_decX hok)
    next => exact absurd hdec (answerNot_ne_answerOk _ _ _ _ _)
  · exact ⟨dec32 b, exec_batpdec hrun hext b, exec_batpenc_ok hrun (hext ▸ encodeBatPa_dec32 b)⟩

end Sys2Proof.Machine
end

section
/-! SUPPORT. The values SRINST installs (43_segment_install.md R164, R170, R171): the sum of the seed's flags, the seed's low 24
bits and 0x111 times the slot, which never reaches the flags. -/

namespace Sys2Proof.Machine

/-- The mask keeps bits 31:28 and 23:0 (43_segment_install.md R161). -/
theorem maskSeed_toNat (seed : Word) :
    (maskSeed seed).toNat = seed.toNat / 2 ^ 28 * 2 ^ 28 + seed.toNat % 2 ^ 24 := by
  have hmask : (maskSeed seed).toNat = seed.toNat &&& 0xF0FFFFFF := BitVec.toNat_and seed 0xF0FFFFFF
  have hlow : (seed.toNat &&& 0xF0FFFFFF) % 2 ^ 24 = seed.toNat % 2 ^ 24 := by
    rw [Nat.and_mod_two_pow]
    exact (Nat.and_two_pow_sub_one_eq_mod _ 24).trans (Nat.mod_mod _ _)
  have hrsv : (seed.toNat &&& 0xF0FFFFFF) / 2 ^ 24 % 2 ^ 4 = 0 := by
    rw [Nat.and_div_two_pow, Nat.and_mod_two_pow]
    exact Nat.and_zero _
  have hhigh : (seed.toNat &&& 0xF0FFFFFF) / 2 ^ 28 = seed.toNat / 2 ^ 28 % 2 ^ 4 := by
    rw [Nat.and_div_two_pow]
    exact Nat.and_two_pow_sub_one_eq_mod _ 4
  omega

/-- The installed value as a number: nothing is cut off, since the masked bits leave room for the largest skew. -/
theorem installValue_toNat (seed : Word) (n : BitVec 4) :
    (installValue seed n.toNat).toNat = seed.toNat / 2 ^ 28 * 2 ^ 28 + seed.toNat % 2 ^ 24 + n.toNat * 0x111 := by
  rw [installValue, maskSeed_toNat, BitVec.toNat_ofNat]
  omega

theorem srFlags_installValue (seed : Word) (n : BitVec 4) : srFlags (installValue seed n.toNat) = srFlags seed := by
  have hflags : (installValue seed n.toNat).toNat / 2 ^ 28 = seed.toNat / 2 ^ 28 := by
    rw [installValue_toNat]
    omega
  refine BitVec.eq_of_toNat_eq ?_
  rw [srFlags, srFlags, toNat_field, toNat_field, hflags]

theorem srVsid_installValue_toNat (seed : Word) (n : BitVec 4) :
    (srVsid (installValue seed n.toNat)).toNat = ((srVsid seed).toNat + n.toNat * 0x111) % 2 ^ 24 := by
  rw [srVsid, srVsid, toNat_trailing_field, toNat_trailing_field, installValue_toNat]
  omega

/-- Bit 24 is the carry out of the VSID field (43_segment_install.md R164). -/
theorem installValue_carry (seed : Word) (n : BitVec 4) :
    (installValue seed n.toNat).getLsbD 24 = true ↔ 2 ^ 24 ≤ (srVsid seed).toNat + n.toNat * 0x111 := by
  rw [BitVec.getLsbD, Nat.testBit_eq_decide_div_mod_eq, decide_eq_true_iff, installValue_toNat, srVsid, toNat_trailing_field]
  omega

/-- The skew is too small to carry past bit 24 (43_segment_install.md R164). -/
theorem installValue_rsv (seed : Word) (n : BitVec 4) : (installValue seed n.toNat).toNat / 2 ^ 25 % 2 ^ 3 = 0 := by
  have htop : (installValue seed n.toNat).toNat / 2 ^ 25 = seed.toNat / 2 ^ 28 * 2 ^ 3 := by
    rw [installValue_toNat]
    omega
  rw [htop, Nat.mul_mod_left]

/-- What SRINST leaves in the eligible slots of a running block (43_segment_install.md R162). -/
theorem srinst_installs {s : State} (hrun : isHalted s = false) (seed : Word) :
    ∃ t, exec (.srinst seed) s = .next t ∧
      ∀ n : BitVec 4, n.toNat < s.params.numUserSegments → readSr t n = some (installValue seed n.toNat) := by
  obtain ⟨t, hdoes, hread, -⟩ := srinstInstallsEligibleSlots seed s
  exact ⟨_, hdoes.exec_running hrun, hread⟩

/-- Settles O25: both sums start from the same VSID, and the slot's sum carries into bit 24 alone. -/
theorem installedSlotsHoldTheirVsids : Obligations.InstalledSlotsHoldTheirVsids := by
  unfold Obligations.InstalledSlotsHoldTheirVsids
  intro ctx seed s hrun hseed
  obtain ⟨t, hexec, hread⟩ := srinst_installs hrun seed
  refine ⟨t, hexec, fun n hn => ⟨installValue seed n.toNat, hread n hn, ?_, ?_, installValue_rsv seed n⟩⟩
  · have hvsid : vsidOf ctx n = srVsid (installValue seed n.toNat) := BitVec.eq_of_toNat_eq (by
      rw [srVsid_installValue_toNat, hseed, Nat.mod_add_mod, vsidOf, BitVec.toNat_ofNat])
    rw [exec_vsid hrun, hvsid]
  · rw [installValue_carry, hseed]

/-- Settles O26: the skew never carries into the flags. -/
theorem installKeepsFlagBits : Obligations.InstallKeepsFlagBits := by
  unfold Obligations.InstallKeepsFlagBits
  intro seed s hrun
  obtain ⟨t, hexec, hread⟩ := srinst_installs hrun seed
  exact ⟨t, hexec, fun n hn => ⟨installValue seed n.toNat, hread n hn, srFlags_installValue seed n⟩⟩

/-- Settles O27: each slot adds 0x111, which is 1 modulo 16, to the sum. -/
theorem installedSlotsAreSkewed : Obligations.InstalledSlotsAreSkewed := by
  unfold Obligations.InstalledSlotsAreSkewed
  intro seed s hrun
  obtain ⟨t, hexec, hread⟩ := srinst_installs hrun seed
  refine ⟨t, hexec, fun n m hnext hm => ?_, fun n hn => ?_⟩
  · refine ⟨_, _, hread n (by omega), hread m hm, ?_⟩
    rw [installValue_toNat, installValue_toNat]
    omega
  · refine ⟨_, hread n hn, ?_⟩
    rw [installValue_toNat]
    omega

end Sys2Proof.Machine
end
